-- ==== Sys2Proof/Word.lean ====
section
/-! DEFINITION. The word types of the engine: every width the spec names (00_scope R6, R7), nothing else. -/

namespace Sys2Proof

/-- A 32-bit register: `VALUE`, `WORK` (VALUE_W and WORK_W of R6). -/
abbrev Word := BitVec 32

/-- A half of `VALUE` (INT_W, FRAC_W of R6), and the two's complement field `FD` (FD_W of R7). -/
abbrev Half := BitVec 16

/-- One byte of the output storage `OUT` (R38). -/
abbrev Byte := BitVec 8

/-- One slot of the digit buffer (SLOT_W of R7): it holds 0..10. -/
abbrev Slot := BitVec 4

/-- A cursor register: `FIRST`, `END`, `DPP`, `LEN` (R27 to R30). -/
abbrev Cursor := BitVec 4

/-- The digit buffer `DB`: DB_CAP = 12 slots (R34). -/
abbrev DigitBuffer := Vector Slot 12

/-- A request word, format `REQ` (R91). -/
abbrev ReqWord := BitVec 50

/-- A phase code, format `PH` (R92). -/
abbrev PhaseCode := BitVec 3

end Sys2Proof
end

