-- ==== Sys2Proof/Config.lean ====
section
/-! DEFINITION. Parameters of the hardware (00_scope R6, R7) and the values the spec leaves free. A constant declared opaque has no value a proof could see. -/

namespace Sys2Proof.Config

/-- DB_CAP (R6): slots of the digit buffer. -/
def dbCap : Nat := 12

/-- BOUNDARY (R6): the slot where fractional digits begin; also INT_SLOTS. -/
def boundary : Nat := 5

/-- MAX_DEC (R6): the clamp of the fractional digit count; also FRAC_SLOTS. -/
def maxDec : Nat := 6

/-- MS_SHIFT (R6): digits of the fraction shown before the point in millisecond mode. -/
def msShift : Nat := 3

/-- ROUND_BIT (R6): the bit of `WORK` that triggers rounding. -/
def roundBit : Nat := 15

/-- The least OUT_CAP of a configuration (R7): the longest result with its terminator (R199). -/
def minOutCap : Nat := 14

/-- How far OUT_CAP lies above its least value; each platform fixes it (R7, decision D6). -/
opaque outCapSpare : Nat

/-- OUT_CAP (R7): the bytes of every storage the provider hands over, `OUT_CAP >= 14`. -/
def outCap : Nat := outCapSpare + minOutCap

/-- The provider's answer to the n-th `ACQ` where the state lists no answer (R122's draw `grant`,
decision D22): a free value. -/
opaque grant : Nat → Bool

/-- The byte at an offset of the storage handed over at the n-th `ACQ` (R122's draw `init`, R77,
decision D21): a free value. -/
opaque initByte : Nat → Nat → Byte

end Sys2Proof.Config
end

