-- ==== Sys2Proof/Syntax.lean ====
section
/-! DEFINITION. The operations of the engine: one constructor per row of spec/opcode_table.json (30_encoding R96). -/

namespace Sys2Proof

/-- The operations of R96. `format` carries the four fields of a request in the argument order of R101;
the other eight are the operations a phase code selects (R92) and have no operand. -/
inductive Instr where
  | format (value : Word) (neg : Bool) (fd : Half) (ms : Bool)
  | idle
  | acq
  | idx
  | fdg
  | rnd
  | asm
  | done
  | faulted
deriving DecidableEq, Repr

end Sys2Proof
end

