-- ==== Sys2Proof/WellFormed.lean ====
section
/-! DEFINITION. Which operations the hardware can be given, in the two places an operation comes from: the host's request port and the phase register. -/

namespace Sys2Proof

/-- R98, R99: the fields of `format` have exactly the widths of R91 and every pattern of them is legal, and
every phase code names an operation, so every value of `Instr` is well-formed: there is no ill-formed request. -/
def WellFormed (i : Instr) : Bool :=
  match i with
  | .format _ _ _ _ => true
  | .idle => true
  | .acq => true
  | .idx => true
  | .fdg => true
  | .rnd => true
  | .asm => true
  | .done => true
  | .faulted => true

/-- R97: `FORMAT` is the only operation the host can select. -/
def hostSelectable (i : Instr) : Bool :=
  match i with
  | .format _ _ _ _ => true
  | .idle => false
  | .acq => false
  | .idx => false
  | .fdg => false
  | .rnd => false
  | .asm => false
  | .done => false
  | .faulted => false

end Sys2Proof
end

