-- ==== Sys2Proof/Decode.lean ====
section
/-! DEFINITION. The two encoded formats (30_encoding R90), the decoder, total on every word and every list of bytes, and the encoder. -/

namespace Sys2Proof

/-- An encoded operation where the engine finds it: a 50-bit request word on the request port, or a 3-bit
code in `PHASE` (R90). -/
inductive Encoded where
  | req (w : ReqWord)
  | ph (c : PhaseCode)
deriving DecidableEq, Repr

/-- Why a list of bytes is no encoded operation. -/
inductive DecodeError where
  /-- The list is neither one byte (format PH) nor seven (format REQ). Safe: no such word exists (R90). -/
  | badLength
  /-- One of the five bits above a phase code is set. Safe: PHASE has three bits. -/
  | phasePadding
  /-- One of the six bits above a request word is set. Safe: the request port has 50 bits. -/
  | requestPadding
deriving DecidableEq, Repr

/-- R91, R93 to R95: `REQ = ms, neg, fd, value` from bit 49 down; no field is shifted or reordered. -/
def decodeReq (w : ReqWord) : Instr :=
  .format (w.extractLsb' 0 32) (w.getLsbD 48) (w.extractLsb' 32 16) (w.getLsbD 49)

/-- R92 and the table of R96: the operation a phase code selects; all eight codes are used (R99). -/
def decodePh (c : PhaseCode) : Instr :=
  match c.toNat with
  | 0 => .idle
  | 1 => .acq
  | 2 => .idx
  | 3 => .fdg
  | 4 => .rnd
  | 5 => .asm
  | 6 => .done
  | _ => .faulted

/-- The decoder: it refuses no word (R98, R99). -/
def decode (e : Encoded) : Instr :=
  match e with
  | .req w => decodeReq w
  | .ph c => decodePh c

/-- R91: the request word of four fields, the most significant first. -/
def encodeReq (value : Word) (neg : Bool) (fd : Half) (ms : Bool) : ReqWord :=
  BitVec.ofBool ms ++ BitVec.ofBool neg ++ fd ++ value

/-- The encoder, from the table of R96. -/
def encode (i : Instr) : Encoded :=
  match i with
  | .format value neg fd ms => .req (encodeReq value neg fd ms)
  | .idle => .ph 0b000#3
  | .acq => .ph 0b001#3
  | .idx => .ph 0b010#3
  | .fdg => .ph 0b011#3
  | .rnd => .ph 0b100#3
  | .asm => .ph 0b101#3
  | .done => .ph 0b110#3
  | .faulted => .ph 0b111#3

/-- The low `n` bytes of a number, least significant first. -/
def bytesOf : Nat → Nat → List Byte
  | 0, _ => []
  | n + 1, w => BitVec.ofNat 8 w :: bytesOf n (w / 256)

/-- A word in whole bytes: one byte holds a phase code, seven hold a request word, bit 0 in the first byte and
the bits the word does not have zero. The spec keeps no word in bytes (R63); this is the form in which a list
of bytes can be given to the decoder (DESIGN CHOICE, log 11). -/
def decodeBytes (bs : List Byte) : Except DecodeError Instr :=
  match bs with
  | [b] =>
    if b.extractLsb' 3 5 = 0#5 then .ok (decodePh (b.extractLsb' 0 3)) else .error .phasePadding
  | [b0, b1, b2, b3, b4, b5, b6] =>
    let w : BitVec 56 := b6 ++ b5 ++ b4 ++ b3 ++ b2 ++ b1 ++ b0
    if w.extractLsb' 50 6 = 0#6 then .ok (decodeReq (w.extractLsb' 0 50)) else .error .requestPadding
  | _ => .error .badLength

/-- An operation in whole bytes, as `decodeBytes` reads it. -/
def encodeBytes (i : Instr) : List Byte :=
  match encode i with
  | .req w => bytesOf 7 w.toNat
  | .ph c => bytesOf 1 c.toNat

/-- How many whole bytes hold `nbits` bits. -/
def wholeBytes (nbits : Nat) : Nat :=
  (nbits + 7) / 8

/-- The operation the decoder reads from a word of the opcode table, `nbits` of it given. -/
def decodeTableWord (nbits w : Nat) : Option Instr :=
  (decodeBytes (bytesOf (wholeBytes nbits) w)).toOption

end Sys2Proof
end

