-- ==== Sys2Proof/Machine/State.lean ====
section
/-! DEFINITION. The engine's state as plain data (10_state R20 to R42), and the state after reset (70_reset_and_hazards R240). -/

namespace Sys2Proof.Machine

/-- The names of `PHASE` (R24, R92). -/
inductive Phase where
  | idle
  | acq
  | int
  | frac
  | round
  | asm
  | done
  | faulted
deriving DecidableEq, Repr

/-- The values of `FAULT` (R33, R210); code 3 is never written (93 U10). -/
inductive FaultCode where
  | none
  | nobuf
  | overrun
deriving DecidableEq, Repr

/-- `OWNER`, the ownership of the output storage (R40). -/
inductive Owner where
  | none
  | engine
  | host
deriving DecidableEq, Repr

/-- One move of the host (R130, R221): none, so that the engine takes its step; `START` with a request word;
or the reset input. -/
inductive HostInput where
  | quiet
  | start (r : ReqWord)
  | reset
deriving DecidableEq, Repr

/-- Bytes by offset in one output storage (R38, R61). Canonical form: offsets strictly rising. An offset that
is not listed does not exist in that storage and has no value. -/
abbrev Memory := List Host.Cell

/-- Everything the spec gives the machine (table of R42), the storages the host owns from earlier requests
(R40, R120), and the three fields by which the outside world reaches a step. -/
structure State where
  /-- `VALUE` (R20). -/
  value : Word
  /-- `NEG` (R21). -/
  neg : Bool
  /-- `FD` (R22). -/
  fd : Half
  /-- `MS` (R23). -/
  ms : Bool
  /-- `PHASE` (R24). -/
  phase : Phase
  /-- `WORK` (R25). -/
  work : Word
  /-- `NDIG` (R26). -/
  ndig : BitVec 3
  /-- `FIRST`, the write-start cursor (R27). -/
  firstCur : Cursor
  /-- `END`, the write-end cursor (R28). -/
  endCur : Cursor
  /-- `DPP`, the decimal point position (R29). -/
  dpp : Cursor
  /-- `LEN` (R30). -/
  len : Cursor
  /-- `FAULT` (R33). -/
  fault : FaultCode
  /-- `FAULTPH` (R33). -/
  faultPh : Phase
  /-- `DB` (R34). -/
  db : DigitBuffer
  /-- `OUT` (R39): the bytes of the storage `OWNER` speaks of; empty where no storage is held. -/
  out : Memory
  /-- `OWNER` (R40). -/
  owner : Owner
  /-- The storages of earlier requests, which the host owns and the engine no longer refers to (R120, R211,
  R240), the newest first. -/
  kept : List Memory
  /-- The host's coming moves, one a step; empty: the host is silent (R130; log 1). -/
  inputs : List HostInput
  /-- The provider's coming answers, one an `ACQ`; empty: they are free values (R122; log 2). -/
  answers : List Bool
  /-- How many `ACQ` steps have asked the provider; the free values are applied to it (log 2, log 3). -/
  draws : Nat
deriving DecidableEq, Repr

/-- Why the machine stops. No step of this engine does: its two exceptions are states it enters (R216), it has
no hang and no other stuck state (R227), so there is no reason to name. -/
inductive Fault
deriving DecidableEq, Repr

/-- Why an operation has no meaning. -/
inductive Refusal where
  /-- Raised by an arm of `exec` whose operation has no meaning yet; no arm is one. Safe: nothing runs. -/
  | notModelled (mnemonic : String)
deriving DecidableEq, Repr

/-- The machine right after reset (R240, R242): `PHASE = IDLE`, `FAULT = NONE`, `OWNER = NONE`, no storage held.
The spec fixes no other register; each holds zero (DESIGN CHOICE, log 5: unsafe). Nothing is handed over yet,
the host is silent, no answer is known and none has been drawn (DESIGN CHOICE, log 1, 2, 7). -/
def State.reset : State where
  value := 0#32
  neg := false
  fd := 0#16
  ms := false
  phase := .idle
  work := 0#32
  ndig := 0#3
  firstCur := 0#4
  endCur := 0#4
  dpp := 0#4
  len := 0#4
  fault := .none
  faultPh := .idle
  db := Vector.replicate 12 0#4
  out := []
  owner := .none
  kept := []
  inputs := []
  answers := []
  draws := 0

end Sys2Proof.Machine
end

