-- ==== Sys2Proof/Machine/Ops.lean ====
section
/-! DEFINITION. The named operations over the two stores and the registers: codes, slots, bytes, storage, the provider's answer, fault entry, the reset input. -/

namespace Sys2Proof.Machine

/-- The 3-bit code of a phase (R24, R92). -/
def phaseCode (p : Phase) : PhaseCode :=
  match p with
  | .idle => 0#3
  | .acq => 1#3
  | .int => 2#3
  | .frac => 3#3
  | .round => 4#3
  | .asm => 5#3
  | .done => 6#3
  | .faulted => 7#3

/-- The phase of a code: all eight codes are used (R24, R99). -/
def phaseOfCode (c : PhaseCode) : Phase :=
  match c.toNat with
  | 0 => .idle
  | 1 => .acq
  | 2 => .int
  | 3 => .frac
  | 4 => .round
  | 5 => .asm
  | 6 => .done
  | _ => .faulted

/-- The 2-bit code of `FAULT` (R33, R210). -/
def faultCodeBits (f : FaultCode) : BitVec 2 :=
  match f with
  | .none => 0#2
  | .nobuf => 1#2
  | .overrun => 2#2

/-! The digit buffer: every access is one slot (R66). -/

/-- `DB[i]` (R9). The stages test that `i` lies in the buffer before they read it (R64). -/
def slot (db : DigitBuffer) (i : Nat) : Slot :=
  db[i]?.getD 0#4

/-- `DB[i] <- v` (R9). The stages test that `i` lies in the buffer before they write it (R64). -/
def setSlot (db : DigitBuffer) (i : Nat) (v : Slot) : DigitBuffer :=
  db.setIfInBounds i v

/-- The buffer `ACQ` leaves: all twelve slots 0 (R122). -/
def zeroBuffer : DigitBuffer :=
  Vector.replicate 12 0#4

/-! The output storage: every access is one byte (R66). -/

/-- `MemRead(OUT, off, 1)`: the byte at an offset, none where the storage has no such offset. -/
def Memory.read : Memory → Nat → Option Byte
  | [], _ => none
  | (a, v) :: m, off => if off = a then some v else Memory.read m off

/-- `MemWrite(OUT, off, 1, v)`. The guard of `ASM` has tested that the storage has the offset (R64, R182). -/
def Memory.write : Memory → Nat → Byte → Memory
  | [], off, v => [(off, v)]
  | (a, w) :: m, off, v =>
    if off < a then (off, v) :: (a, w) :: m
    else if off = a then (a, v) :: m
    else (a, w) :: Memory.write m off v

/-- The canonical form: offsets strictly rising. -/
def Memory.wf : Memory → Bool
  | [] => true
  | [_] => true
  | (a, _) :: (b, w) :: m => decide (a < b) && Memory.wf ((b, w) :: m)

/-- Whether a storage has every offset below `n`, so that `n` bytes fit in it. -/
def Memory.covers (m : Memory) (n : Nat) : Bool :=
  (List.range n).all fun off => (m.read off).isSome

/-- Bytes written one after the other at rising offsets from `off` (R67 (d): `bp <- bp + 1`). -/
def Memory.writeAll : Memory → Nat → List Byte → Memory
  | m, _, [] => m
  | m, off, b :: bs => Memory.writeAll (m.write off b) (off + 1) bs

/-- `n` bytes of the storage handed over at draw `d`, from offset `off` on (R122's draw `init`). -/
def freshCells (d : Nat) : Nat → Nat → Memory
  | _, 0 => []
  | off, n + 1 => (off, Config.initByte d off) :: freshCells d (off + 1) n

/-- The storage handed over at draw `d`: OUT_CAP bytes of free contents (R122, R77). -/
def freshStorage (d : Nat) : Memory :=
  freshCells d 0 Config.outCap

/-- The storages the host owns, the newest first (R40): while `OWNER = HOST` the one in `out` is among them. -/
def hostStores (s : State) : List Memory :=
  match s.owner with
  | .host => s.out :: s.kept
  | .engine => s.kept
  | .none => s.kept

/-- `OWNER <- NONE`: the engine holds no storage any more. One it held is abandoned and the host never receives
it (R216, R240); one the host owns stays the host's, not a byte of it touched (R211, R240). -/
def State.letGo (s : State) : State :=
  { s with owner := .none, out := [], kept := hostStores s }

/-! The provider (R41, R122): its answer and the storage that comes with a grant. -/

/-- The provider's answer to the `ACQ` now taken: the next one listed, a free value where none is (log 2). -/
def State.grant (s : State) : Bool :=
  match s.answers with
  | a :: _ => a
  | [] => Config.grant s.draws

/-- The provider has answered. -/
def State.drawn (s : State) : State :=
  { s with answers := s.answers.tail, draws := s.draws + 1 }

/-! Exceptions. -/

/-- The two exceptions (R210). -/
inductive EngineException where
  | noBuffer
  | bufferOverrun
deriving DecidableEq, Repr

/-- `code(E)` (R210, R216). -/
def exceptionCode (e : EngineException) : FaultCode :=
  match e with
  | .noBuffer => .nobuf
  | .bufferOverrun => .overrun

/-- Fault entry (R216): the code, the phase of the operation that raised it, the storage abandoned, `FAULTED`.
Nothing is saved, nothing is vectored. What the step had written before it raised stays. -/
def State.raise (s : State) (e : EngineException) : State :=
  { s.letGo with fault := exceptionCode e, faultPh := s.phase, phase := .faulted }

/-- The reset input (R240), the only way out of `FAULTED` (R218): `PHASE`, `FAULT` and `OWNER` as R240 says and
the registers it leaves unspecified at the values of `State.reset` (log 6). Storage the host owns is not
affected; the host's and the provider's coming moves are not the engine's to reset. -/
def State.resetInput (s : State) : State :=
  { State.reset with kept := hostStores s, inputs := s.inputs, answers := s.answers, draws := s.draws }

/-! Taking a step. -/

/-- The step of an engine operation: it is taken in the phase that selects it (R92, R127) and in no other, where
the operation is not enabled and nothing happens (DESIGN CHOICE, log 10). -/
def engineStep (p : Phase) (op : State → State) (s : State) : Host.Outcome State Fault Refusal :=
  .next (if s.phase = p then op s else s)

/-- A phase without an engine step (R123, R124, R125): nothing changes. -/
def holdStep (s : State) : Host.Outcome State Fault Refusal :=
  .next s

end Sys2Proof.Machine
end

