-- ==== Sys2Proof/Machine/Operands.lean ====
section
/-! DEFINITION. The operands of the stage operations: the halves of VALUE, the digit-count policy, the point position, the characters. -/

namespace Sys2Proof.Machine

/-- `integerPart = VALUE[31:16]` (R20, R93). -/
def integerPart (value : Word) : Half :=
  value.extractLsb' 16 16

/-- `fractionPart = VALUE[15:0]` (R20, R93). -/
def fractionPart (value : Word) : Half :=
  value.extractLsb' 0 16

/-- The effective digit count `NDIG` of `fd = int(FD)` (R160), on mathematical integers: `fd + 3` does not wrap
(R94). -/
def digitCount (ms : Bool) (fd : Int) : Nat :=
  let d := if ms then max (fd + Config.msShift) Config.msShift else fd
  let d := if d > Config.maxDec then (Config.maxDec : Int) else d
  let d := if d < 0 then 0 else d
  d.toNat

/-- The decimal point position `DPP` (R161): 5, or 8 in millisecond mode. -/
def pointPosition (ms : Bool) : Nat :=
  if ms then Config.boundary + Config.msShift else Config.boundary

/-- '-' (R78, K1; PRESUMED, log 12). -/
def charMinus : Byte := 0x2D#8

/-- '.' (R78, K1; PRESUMED, log 12). -/
def charPoint : Byte := 0x2E#8

/-- The terminator (R78, K1; PRESUMED, log 12). -/
def charNul : Byte := 0x00#8

/-- The character of a digit: digit value plus the code of '0' (R67 (d), R78; PRESUMED, log 12). -/
def charDigit (d : Slot) : Byte :=
  d.setWidth 8 + 0x30#8

end Sys2Proof.Machine
end

