-- ==== Sys2Proof/Machine/Acquire.lean ====
section
/-! DEFINITION. ACQ: acquire the output storage and clear the digit buffer (40_request_and_sequencing R122). -/

namespace Sys2Proof.Machine

/-- What a granted `ACQ` writes (R122): fresh storage, the buffer cleared, both cursors at the boundary. A
storage the host owned until now stays the host's (R40). -/
def State.acquire (s : State) : State :=
  { s with
    out := freshStorage s.draws
    kept := hostStores s
    owner := .engine
    db := zeroBuffer
    firstCur := BitVec.ofNat 4 Config.boundary
    endCur := BitVec.ofNat 4 Config.boundary
    phase := .int }

/-- The `ACQ` operation (R122): on a denial it raises `NoBuffer` and nothing else happens (R211). -/
def acquireOp (s : State) : State :=
  if s.grant then s.acquire.drawn else (s.raise .noBuffer).drawn

/-- `ACQ` (R122). -/
def execAcq (s : State) : Host.Outcome State Fault Refusal :=
  engineStep .acq acquireOp s

end Sys2Proof.Machine
end

