-- ==== Sys2Proof/Machine/Assembler.lean ====
section
/-! DEFINITION. ASM, the digit buffer assembler (44_assembler R180 to R182). -/

namespace Sys2Proof.Machine

/-- The trimming loop of R180, at most `k` times from slot `first`: while the slot is 0, move right. An error is
a `FIRST` that left the buffer, in no reachable state (R64; log 9). -/
def trimLoop (db : DigitBuffer) : Nat → Nat → Except Nat Nat
  | 0, first => .ok first
  | k + 1, first =>
    if first < Config.dbCap then
      if slot db first = 0#4 then trimLoop db k (first + 1) else .ok first
    else .error first

/-- R180: `FIRST` moves right over zeros, not past `DPP - 1`. -/
def trim (db : DigitBuffer) (first dpp : Nat) : Except Nat Nat :=
  trimLoop db (dpp - 1 - first) first

/-- The characters of `k` slots from slot `i` on, the point before the digit at `DPP` (the loop of R182). -/
def digitChars (db : DigitBuffer) (dpp : Nat) : Nat → Nat → List Byte
  | 0, _ => []
  | k + 1, i =>
    (if i = dpp then [charPoint] else []) ++ charDigit (slot db i) :: digitChars db dpp k (i + 1)

/-- The sign (R181): '-' when `NEG = 1`, and nothing otherwise, whatever the digits are. -/
def signChars (neg : Bool) : List Byte :=
  if neg then [charMinus] else []

/-- The characters `ASM` writes before the terminator, first to last (R182). -/
def resultChars (neg : Bool) (db : DigitBuffer) (first endAt dpp : Nat) : List Byte :=
  signChars neg ++ digitChars db dpp (endAt - first) first

/-- `need` of R182: the bytes of the result with its terminator. -/
def bytesNeeded (neg : Bool) (first endAt dpp : Nat) : Nat :=
  neg.toNat + (endAt - first) + (if dpp < endAt then 1 else 0) + 1

/-- The guard of R182, before the first byte is written: the result must fit in the storage handed over, which
has OUT_CAP bytes whenever one is held; and, in states no run reaches, every slot to print must lie in the buffer
(R64; log 9). -/
def asmFits (s : State) (first : Nat) : Bool :=
  s.out.covers (bytesNeeded s.neg first s.endCur.toNat s.dpp.toNat) && decide (s.endCur.toNat ≤ Config.dbCap)

/-- The registers and bytes of a completed `ASM` (R182), `chars` being what it writes before the terminator. -/
def State.assembled (s : State) (chars : List Byte) : State :=
  { s with
    out := s.out.writeAll 0 (chars ++ [charNul])
    len := BitVec.ofNat 4 chars.length
    owner := .host
    phase := .done }

/-- The `ASM` operation (R182): trim, guard, write the characters and the terminator at rising offsets from 0,
hand the storage to the host. -/
def assemble (s : State) : State :=
  match trim s.db s.firstCur.toNat s.dpp.toNat with
  | .error first => { s with firstCur := BitVec.ofNat 4 first }.raise .bufferOverrun
  | .ok first =>
    if asmFits s first then
      { s with firstCur := BitVec.ofNat 4 first }.assembled
        (resultChars s.neg s.db first s.endCur.toNat s.dpp.toNat)
    else { s with firstCur := BitVec.ofNat 4 first }.raise .bufferOverrun

/-- `ASM` (R182). -/
def execAsm (s : State) : Host.Outcome State Fault Refusal :=
  engineStep .asm assemble s

end Sys2Proof.Machine
end

