-- ==== Sys2Proof/Machine/FractionDigits.lean ====
section
/-! DEFINITION. FDG, the fractional digit generator (42_fractional_digit_generator R160 to R162). -/

namespace Sys2Proof.Machine

/-- One multiply of R162: drop the previous digit, then times ten. -/
def workStep (work : Word) : Word :=
  (work &&& 0x0000FFFF#32) * 10#32

/-- The digit a multiply yields: `WORK[19:16]` (R162). -/
def workDigit (work : Word) : Slot :=
  work.extractLsb' 16 4

/-- What the loop of `FDG` carries: `WORK`, `END` and the buffer. -/
structure Generation where
  work : Word
  endAt : Nat
  db : DigitBuffer
deriving DecidableEq, Repr

/-- The loop of R162, `k` times: post-increment store through `END` (R67 (b)). An error is what had been written
when the guard `END > 10` failed (R212). -/
def fdgLoop : Nat → Generation → Except Generation Generation
  | 0, g => .ok g
  | k + 1, g =>
    if g.endAt > 10 then .error g
    else
      let work := workStep g.work
      fdgLoop k { work := work, endAt := g.endAt + 1, db := setSlot g.db g.endAt (workDigit work) }

/-- The registers of `FDG` as its loop leaves them. -/
def State.generated (s : State) (g : Generation) : State :=
  { s with
    ndig := BitVec.ofNat 3 (digitCount s.ms s.fd.toInt)
    dpp := BitVec.ofNat 4 (pointPosition s.ms)
    work := g.work
    endCur := BitVec.ofNat 4 g.endAt
    db := g.db }

/-- The `FDG` operation (R162). -/
def fractionDigits (s : State) : State :=
  match fdgLoop (digitCount s.ms s.fd.toInt)
      { work := (fractionPart s.value).setWidth 32, endAt := s.endCur.toNat, db := s.db } with
  | .ok g => { s.generated g with phase := .round }
  | .error g => (s.generated g).raise .bufferOverrun

/-- `FDG` (R162). -/
def execFdg (s : State) : Host.Outcome State Fault Refusal :=
  engineStep .frac fractionDigits s

end Sys2Proof.Machine
end

