-- ==== Sys2Proof/Machine/Hold.lean ====
section
/-! DEFINITION. The hold phases IDLE, DONE and FAULTED: the engine has no step in them (40_request_and_sequencing R123 to R125). -/

namespace Sys2Proof.Machine

/-- `IDLE` (R123): no engine step; only START or reset changes the state. -/
def execIdle (s : State) : Host.Outcome State Fault Refusal :=
  holdStep s

/-- `DONE` (R124): no engine step; the result stays for the host to read. -/
def execDone (s : State) : Host.Outcome State Fault Refusal :=
  holdStep s

/-- `FAULTED` (R125): no engine step; only reset leaves the phase. -/
def execFaulted (s : State) : Host.Outcome State Fault Refusal :=
  holdStep s

end Sys2Proof.Machine
end

