-- ==== Sys2Proof/Machine/IntegerDigits.lean ====
section
/-! DEFINITION. IDX, the integer digit extractor (41_integer_digit_extractor R150). -/

namespace Sys2Proof.Machine

/-- The loop of R150 on `FIRST`, the temporary `n` and the buffer: pre-decrement store of `n mod 10` through
`FIRST` (R67 (a)) until the quotient is 0. An error is what had been written when a guard failed: `FIRST = 0`
before a decrement (R212), or, in no reachable state, a `FIRST` beyond the buffer (R64; log 9). -/
def idxLoop : Nat → Nat → DigitBuffer → Except (Nat × DigitBuffer) (Nat × DigitBuffer)
  | 0, _, db => .error (0, db)
  | first + 1, n, db =>
    if first < Config.dbCap then
      let db := setSlot db first (BitVec.ofNat 4 (n % 10))
      if n / 10 = 0 then .ok (first, db) else idxLoop first (n / 10) db
    else .error (first + 1, db)

/-- The two cases of R150: a zero integer part reserves the slot left of the boundary and writes none. -/
def idxRun (n first : Nat) (db : DigitBuffer) : Except (Nat × DigitBuffer) (Nat × DigitBuffer) :=
  if n = 0 then
    match first with
    | 0 => .error (0, db)
    | f + 1 => .ok (f, db)
  else idxLoop first n db

/-- The `IDX` operation (R150). -/
def integerDigits (s : State) : State :=
  match idxRun (integerPart s.value).toNat s.firstCur.toNat s.db with
  | .ok (first, db) => { s with firstCur := BitVec.ofNat 4 first, db := db, phase := .frac }
  | .error (first, db) => { s with firstCur := BitVec.ofNat 4 first, db := db }.raise .bufferOverrun

/-- `IDX` (R150). -/
def execIdx (s : State) : Host.Outcome State Fault Refusal :=
  engineStep .int integerDigits s

end Sys2Proof.Machine
end

