-- ==== Sys2Proof/Machine/Request.lean ====
section
/-! DEFINITION. FORMAT as a step of the host: START (40_request_and_sequencing R120, R121, R126). -/

namespace Sys2Proof.Machine

/-- START is enabled in `IDLE` and `DONE` (R120). -/
def acceptsStart (s : State) : Bool :=
  match s.phase with
  | .idle => true
  | .done => true
  | .acq => false
  | .int => false
  | .frac => false
  | .round => false
  | .asm => false
  | .faulted => false

/-- What START writes: the four request latches and `PHASE`; nothing else changes (R120). -/
def State.latch (s : State) (value : Word) (neg : Bool) (fd : Half) (ms : Bool) : State :=
  { s with value := value, fd := fd, neg := neg, ms := ms, phase := .acq }

/-- `FORMAT` (R126) begins with START: accepted, it latches the request (R120); in any other phase the word is
dropped and no request is queued (R121). The engine's steps complete the command. -/
def execFormat (value : Word) (neg : Bool) (fd : Half) (ms : Bool) (s : State) :
    Host.Outcome State Fault Refusal :=
  .next (if acceptsStart s then s.latch value neg fd ms else s)

end Sys2Proof.Machine
end

