-- ==== Sys2Proof/Machine/Flags.lean ====
section
/-! DEFINITION. Conditions. The engine has one, the round-up condition, and no stored flag (10_state R32). -/

namespace Sys2Proof.Machine

/-- `RU = WORK[15]` (R32, R170): the remainder is at least half a unit of the last digit. -/
def roundUp (work : Word) : Bool :=
  work.getLsbD Config.roundBit

end Sys2Proof.Machine
end

