-- ==== Sys2Proof/Machine/Rounding.lean ====
section
/-! DEFINITION. RND, the rounding carry propagator (43_rounding_propagator R170 to R172). -/

namespace Sys2Proof.Machine

/-- The carry chain of R171 from slot `p` leftward (R67 (c)): increment the slot, and while it is 10 reset it and
increment the slot to its left. The answer is the slot where the chain stops; an error is what had been written
when the guard `p = 0` failed. -/
def carryLoop : Nat → DigitBuffer → Except DigitBuffer (Nat × DigitBuffer)
  | 0, db =>
    let v := slot db 0 + 1#4
    if v = 10#4 then .error (setSlot db 0 0#4) else .ok (0, setSlot db 0 v)
  | p + 1, db =>
    let v := slot db (p + 1) + 1#4
    if v = 10#4 then carryLoop p (setSlot db (p + 1) 0#4) else .ok (p + 1, setSlot db (p + 1) v)

/-- The chain starts at `p = END - 1` (R171); an `END` that gives no slot of the buffer, in no reachable state, is
a bounds violation before the first access (R64; log 9). -/
def carryRun (endAt : Nat) (db : DigitBuffer) : Except DigitBuffer (Nat × DigitBuffer) :=
  if 1 ≤ endAt ∧ endAt ≤ Config.dbCap then carryLoop (endAt - 1) db else .error db

/-- The `RND` operation (R171): it rounds when `WORK[15]` is set (R170), and a carry that stops left of `FIRST`
moves `FIRST` there (R172). -/
def roundDigits (s : State) : State :=
  if roundUp s.work then
    match carryRun s.endCur.toNat s.db with
    | .ok (p, db) =>
      { s with
        db := db
        firstCur := if p < s.firstCur.toNat then BitVec.ofNat 4 p else s.firstCur
        phase := .asm }
    | .error db => { s with db := db }.raise .bufferOverrun
  else { s with phase := .asm }

/-- `RND` (R171). -/
def execRnd (s : State) : Host.Outcome State Fault Refusal :=
  engineStep .round roundDigits s

end Sys2Proof.Machine
end

