-- ==== Sys2Proof/Machine/Dispatch.lean ====
section
/-! DEFINITION. The one match over the operations: one arm a constructor, each a direct call of its meaning. -/

namespace Sys2Proof.Machine

-- The meaning of an operation in a state.
def exec (i : Instr) (s : State) : Host.Outcome State Fault Refusal :=
  match i with
  | .format value neg fd ms => Sys2Proof.Machine.execFormat value neg fd ms s
  | .idle => Sys2Proof.Machine.execIdle s
  | .acq => Sys2Proof.Machine.execAcq s
  | .idx => Sys2Proof.Machine.execIdx s
  | .fdg => Sys2Proof.Machine.execFdg s
  | .rnd => Sys2Proof.Machine.execRnd s
  | .asm => Sys2Proof.Machine.execAsm s
  | .done => Sys2Proof.Machine.execDone s
  | .faulted => Sys2Proof.Machine.execFaulted s

end Sys2Proof.Machine
end

