-- ==== Sys2Proof/Machine/Fetch.lean ====
section
/-! DEFINITION. Where the next operation comes from (30_encoding R92, R96): the host's move where there is one, else the phase register. -/

namespace Sys2Proof.Machine

/-- What the next step is: the reset input, or an encoded operation. -/
inductive Move where
  | reset
  | operation (e : Encoded)
deriving DecidableEq, Repr

/-- The move of a host input: START brings its request word; a quiet host leaves the step to the operation
`PHASE` selects (R92, R130). -/
def moveOf (h : HostInput) (s : State) : Move :=
  match h with
  | .quiet => .operation (.ph (phaseCode s.phase))
  | .start r => .operation (.req r)
  | .reset => .reset

/-- The next move and the state with the host's input taken (log 1). -/
def fetch (s : State) : Move × State :=
  match s.inputs with
  | [] => (moveOf .quiet s, s)
  | h :: rest => (moveOf h s, { s with inputs := rest })

/-- A word of the opcode table put where the next step fetches (log 13): a request word on the request port, with
START; a phase code in `PHASE`, the host being quiet. -/
def placeWord (s : State) (nbits w : Nat) : State :=
  match wholeBytes nbits with
  | 1 => { s with phase := phaseOfCode (BitVec.ofNat 3 w), inputs := .quiet :: s.inputs }
  | 7 => { s with inputs := .start (BitVec.ofNat 50 w) :: s.inputs }
  | _ => s

end Sys2Proof.Machine
end

