-- ==== Sys2Proof/Machine/Step.lean ====
section
/-! DEFINITION. One step of the machine: take the next move, decode it, run it (00_scope R9, 40_request_and_sequencing R130). -/

namespace Sys2Proof.Machine

/-- One atomic step: the reset input, or the operation decoded from where it stands. -/
def step (s : State) : Host.Outcome State Fault Refusal :=
  match fetch s with
  | (.reset, t) => .next t.resetInput
  | (.operation e, t) => exec (decode e) t

/-- A word of the opcode table where the next step fetches it. -/
def State.withFetchWord (s : State) (nbits w : Nat) : State :=
  placeWord s nbits w

end Sys2Proof.Machine
end

