-- ==== Sys2Proof/Machine/HostView.lean ====
section
/-! DEFINITION. What the host can read (10_state R45) and the engine's answer to it (40_request_and_sequencing R128). Reads change nothing (R66). -/

namespace Sys2Proof.Machine

/-- The host reads `PHASE`, at any time (R45). -/
def hostReadPhase (s : State) : PhaseCode :=
  phaseCode s.phase

/-- The host reads `FAULT`, at any time (R45). -/
def hostReadFault (s : State) : BitVec 2 :=
  faultCodeBits s.fault

/-- The host reads `FAULTPH`: meaningful only while `FAULT` is not 0 (R33, 93 U11). -/
def hostReadFaultPh (s : State) : Option PhaseCode :=
  if s.fault = .none then none else some (phaseCode s.faultPh)

/-- The host reads `LEN`: valid only in `DONE` (R30, R244). -/
def hostReadLen (s : State) : Option Cursor :=
  if s.phase = .done then some s.len else none

/-- The host reads `OUT[off]`: in `DONE` only, and no further than the terminator (R45, R70, R244). -/
def hostReadOut (s : State) (off : Nat) : Option Byte :=
  if s.phase = .done ∧ off ≤ s.len.toNat then s.out.read off else none

/-- What polling `PHASE` tells the host (R128). -/
inductive Response where
  | idle
  | busy
  | result
  | fail
deriving DecidableEq, Repr

/-- R128: `DONE` means RESULT, `FAULTED` means FAIL, any other value busy or idle. -/
def response (s : State) : Response :=
  match s.phase with
  | .idle => .idle
  | .acq => .busy
  | .int => .busy
  | .frac => .busy
  | .round => .busy
  | .asm => .busy
  | .done => .result
  | .faulted => .fail

/-- The bytes `OUT[0..LEN]` in the order of their offsets, none for an offset the storage does not have. -/
def resultBytes (s : State) : List (Option Byte) :=
  (List.range (s.len.toNat + 1)).map s.out.read

end Sys2Proof.Machine
end

