-- ==== Sys2Proof/Safety.lean ====
section
/-! DEFINITION. The terms in which claims speak: the digit buffer read as numbers, the closed form of the result (45_format_function R191), the invariants of the stages (R200, R201, R43). -/

namespace Sys2Proof.Safety

open Sys2Proof.Machine

/-! The digit buffer read as a number (R151, R163, R173). -/

/-- `n` slots from slot `lo` on, read as one decimal number, the lowest index most significant (R62). -/
def slotsFrom (db : DigitBuffer) (lo : Nat) : Nat → Nat
  | 0 => 0
  | n + 1 => slotsFrom db lo n * 10 + (slot db (lo + n)).toNat

/-- Slots `0 .. n-1` read as one decimal number. -/
def slotsValue (db : DigitBuffer) (n : Nat) : Nat :=
  slotsFrom db 0 n

/-- Every slot holds a decimal digit (R34: outside `RND` every slot holds 0..9). -/
def DigitsOk (db : DigitBuffer) : Prop :=
  ∀ i, (slot db i).toNat ≤ 9

/-- Every slot from `n` on is 0. -/
def ZeroFrom (db : DigitBuffer) (n : Nat) : Prop :=
  ∀ i, n ≤ i → slot db i = 0#4

/-- Every slot left of `n` is 0. -/
def ZeroBelow (db : DigitBuffer) (n : Nat) : Prop :=
  ∀ i, i < n → slot db i = 0#4

/-- The number of decimal digits of an integer part, 1 for 0 (the `k` of R151). -/
def digitsOfInteger (i : Nat) : Nat :=
  if i < 10 then 1
  else if i < 100 then 2
  else if i < 1000 then 3
  else if i < 10000 then 4
  else 5

/-! The closed form (R191). -/

/-- A digit as its character (R78). -/
def digitByte (d : Nat) : Byte :=
  BitVec.ofNat 8 (0x30 + d)

/-- `dec_K(B)`: exactly `k` digits, padded on the left with zeros. -/
def padded : Nat → Nat → List Byte
  | 0, _ => []
  | k + 1, b => padded k (b / 10) ++ [digitByte (b % 10)]

/-- The shortest decimal numeral of `n`, in at most `fuel` digits. -/
def numeralIn : Nat → Nat → List Byte
  | 0, _ => []
  | fuel + 1, n => if n < 10 then [digitByte n] else numeralIn fuel (n / 10) ++ [digitByte (n % 10)]

/-- `dec(A)`: the shortest decimal numeral, "0" for 0; no `A` of R191 has more than eight digits. -/
def numeral (a : Nat) : List Byte :=
  numeralIn 8 a

/-- `S` of R191: the digits of the fraction shown before the point. -/
def shownBefore (ms : Bool) : Nat :=
  if ms then 3 else 0

/-- `K` of R191: the digits after the point. -/
def shownAfter (fd : Int) (ms : Bool) : Nat :=
  digitCount ms fd - shownBefore ms

/-- `D` of R191 and R173: the value scaled by `10^N`, rounded half up. -/
def roundedValue (value : Word) (fd : Int) (ms : Bool) : Nat :=
  (value.toNat * 10 ^ digitCount ms fd + 32768) / 65536

/-- `format_string` in the closed form of R191. -/
def closedString (value : Word) (neg : Bool) (fd : Int) (ms : Bool) : List Byte :=
  let k := shownAfter fd ms
  let d := roundedValue value fd ms
  (if neg then [0x2D#8] else []) ++ numeral (d / 10 ^ k) ++
    (if k > 0 then 0x2E#8 :: padded k (d % 10 ^ k) else [])

/-- `format_bytes` (R190) by the closed form: the string and the terminator. -/
def closedBytes (value : Word) (neg : Bool) (fd : Int) (ms : Bool) : List Byte :=
  closedString value neg fd ms ++ [0x00#8]

/-- The state holds a complete result with these bytes (R124, R126): `OUT[0..LEN]` and `LEN`. -/
def Delivers (s : State) (bytes : List Byte) : Prop :=
  s.phase = .done ∧ s.owner = .host ∧ s.fault = .none ∧
    s.len.toNat + 1 = bytes.length ∧ resultBytes s = bytes.map some

/-! Invariants. -/

/-- Every output storage in sight is in canonical form. -/
def MemoryOk (s : State) : Prop :=
  s.out.wf = true ∧ ∀ m ∈ s.kept, Memory.wf m = true

/-- A storage has exactly the offsets `0 .. OUT_CAP-1` (R38). -/
def FullStorage (m : Memory) : Prop :=
  ∀ off, (m.read off).isSome = true ↔ off < Config.outCap

/-- Storage is held exactly while somebody owns it (R40, R42). -/
def StorageOk (s : State) : Prop :=
  (s.owner = .none → s.out = []) ∧ (s.owner ≠ .none → FullStorage s.out) ∧
    ∀ m ∈ s.kept, FullStorage m

/-- Which owners a phase allows (R40, R120, R124, R216). -/
def ownerAllowed (p : Phase) (o : Owner) : Bool :=
  match p with
  | .idle => decide (o = .none)
  | .acq => decide (o ≠ .engine)
  | .int => decide (o = .engine)
  | .frac => decide (o = .engine)
  | .round => decide (o = .engine)
  | .asm => decide (o = .engine)
  | .done => decide (o = .host)
  | .faulted => decide (o = .none)

/-- The phase recorded with each fault (the table of R210). -/
def faultPhaseAllowed (f : FaultCode) (p : Phase) : Bool :=
  match f with
  | .none => true
  | .nobuf => decide (p = .acq)
  | .overrun => decide (p = .int ∨ p = .frac ∨ p = .round ∨ p = .asm)

/-- The sequencer's own invariant: the owner fits the phase, `FAULT` is set exactly in `FAULTED` (R217, R218), and
`FAULTPH` is a phase that raises the fault (R210). -/
def ControlOk (s : State) : Prop :=
  ownerAllowed s.phase s.owner = true ∧ (s.fault ≠ .none ↔ s.phase = .faulted) ∧
    faultPhaseAllowed s.fault s.faultPh = true

/-- The left edge of the digit window (R151, R173): zeros left of `FIRST`, and a non-zero digit at `FIRST` unless
it is slot 4. -/
def WindowOk (s : State) : Prop :=
  s.firstCur.toNat ≤ 4 ∧ ZeroBelow s.db s.firstCur.toNat ∧
    (s.firstCur = 4#4 ∨ slot s.db s.firstCur.toNat ≠ 0#4)

/-- `N` for the latched request. -/
def requestedDigits (s : State) : Nat :=
  digitCount s.ms s.fd.toInt

/-- What `FDG` fixed for the latched request (R160, R161, R163, R201). -/
def CountsOk (s : State) : Prop :=
  s.ndig.toNat = requestedDigits s ∧ s.dpp.toNat = pointPosition s.ms ∧
    s.endCur.toNat = 5 + requestedDigits s

/-- After `ACQ` (R201). -/
def AfterAcq (s : State) : Prop :=
  s.db = zeroBuffer ∧ s.firstCur = 5#4 ∧ s.endCur = 5#4

/-- After `IDX` (R151, R201). -/
def AfterIdx (s : State) : Prop :=
  WindowOk s ∧ DigitsOk s.db ∧ ZeroFrom s.db 5 ∧ s.endCur = 5#4 ∧
    slotsValue s.db 5 = (integerPart s.value).toNat

/-- After `FDG` (R163, R173, R201). -/
def AfterFdg (s : State) : Prop :=
  WindowOk s ∧ DigitsOk s.db ∧ CountsOk s ∧ ZeroFrom s.db (5 + requestedDigits s) ∧
    slotsValue s.db (5 + requestedDigits s) = s.value.toNat * 10 ^ requestedDigits s / 65536 ∧
    s.work.toNat % 65536 = s.value.toNat * 10 ^ requestedDigits s % 65536 ∧ s.work.toNat ≤ 655350

/-- After `RND` (R173, R201). -/
def AfterRnd (s : State) : Prop :=
  WindowOk s ∧ DigitsOk s.db ∧ CountsOk s ∧ ZeroFrom s.db (5 + requestedDigits s) ∧
    slotsValue s.db (5 + requestedDigits s) = roundedValue s.value s.fd.toInt s.ms

/-- After `ASM` (R43, R124, R126, R201): the point lies inside the window or at its right edge, and the bytes are those of
the latched request. -/
def AfterAsm (s : State) : Prop :=
  CountsOk s ∧ s.firstCur.toNat < s.dpp.toNat ∧ s.dpp.toNat ≤ s.endCur.toNat ∧
    Delivers s (closedBytes s.value s.neg s.fd.toInt s.ms)

/-- What holds of the datapath in each phase. -/
def DataOk (s : State) : Prop :=
  match s.phase with
  | .idle => True
  | .acq => True
  | .int => AfterAcq s
  | .frac => AfterIdx s
  | .round => AfterFdg s
  | .asm => AfterRnd s
  | .done => AfterAsm s
  | .faulted => True

/-- The invariant of the engine (R43, R200, R201). -/
def Inv (s : State) : Prop :=
  MemoryOk s ∧ StorageOk s ∧ ControlOk s ∧ DataOk s

/-! The sequencer and the fault entry. -/

/-- The transitions of `PHASE` (the table of R127), by what the host does in the step. -/
def transition (h : HostInput) (p q : Phase) : Bool :=
  match h with
  | .reset => decide (q = .idle)
  | .start _ => if p = .idle ∨ p = .done then decide (q = .acq) else decide (q = p)
  | .quiet =>
    match p with
    | .idle => decide (q = .idle)
    | .acq => decide (q = .int ∨ q = .faulted)
    | .int => decide (q = .frac ∨ q = .faulted)
    | .frac => decide (q = .round ∨ q = .faulted)
    | .round => decide (q = .asm ∨ q = .faulted)
    | .asm => decide (q = .done ∨ q = .faulted)
    | .done => decide (q = .done)
    | .faulted => decide (q = .faulted)

/-- What the host does in the next step; silent where no move is listed. -/
def hostMove (s : State) : HostInput :=
  s.inputs.headD .quiet

/-- `t` is `s` with `BufferOverrun` taken (R212, R216): the code, the phase of the operation, the storage abandoned;
the request latches, `LEN` and every storage of the host as they were. -/
def Overruns (s t : State) : Prop :=
  t.fault = .overrun ∧ t.faultPh = s.phase ∧ t.owner = .none ∧ t.phase = .faulted ∧ t.out = [] ∧
    hostStores t = hostStores s ∧ t.value = s.value ∧ t.neg = s.neg ∧ t.fd = s.fd ∧ t.ms = s.ms ∧ t.len = s.len

/-! A request from START to its end (R126, R131). -/

/-- The fields of a request word (R91). -/
def reqValue (r : ReqWord) : Word := r.extractLsb' 0 32

/-- `int(FD)` of a request word (R94). -/
def reqDigits (r : ReqWord) : Int := (r.extractLsb' 32 16).toInt

/-- `neg` of a request word (R91). -/
def reqNeg (r : ReqWord) : Bool := r.getLsbD 48

/-- `ms` of a request word (R91). -/
def reqMs (r : ReqWord) : Bool := r.getLsbD 49

/-- The host gives START with `r` in a phase that accepts it and is quiet for the `n` steps that follow. -/
def Requests (s : State) (r : ReqWord) (n : Nat) : Prop :=
  (s.phase = .idle ∨ s.phase = .done) ∧ s.inputs.head? = some (.start r) ∧
    ∀ h ∈ s.inputs.tail.take n, h = HostInput.quiet

/-- The request is given without a fault standing, the provider will grant, and the host lets the five engine steps
run. Nothing is asked of any other register. -/
def GrantedRequest (s : State) (r : ReqWord) : Prop :=
  Requests s r 5 ∧ s.fault = .none ∧ s.answers.head? = some true

/-- The six steps of a granted request (R131) lead from `s` to `t`. -/
def RunsTo (s t : State) : Prop :=
  Host.Core.run core 6 s = .next t

/-- Digits `lo .. lo+n-1` of the buffer as characters (R78). -/
def slotText (db : DigitBuffer) (lo n : Nat) : List Byte :=
  (List.range n).map fun j => digitByte (slot db (lo + j)).toNat

/-- The characters of a digit window: the sign, the digits before the point, and where digits follow it the point and
those digits (R182, R183). -/
def windowText (neg : Bool) (db : DigitBuffer) (first dpp endAt : Nat) : List Byte :=
  (if neg then [0x2D#8] else []) ++ slotText db first (dpp - first) ++
    (if dpp < endAt then 0x2E#8 :: slotText db dpp (endAt - dpp) else [])

/-- A byte is the character of a decimal digit. -/
def IsDigit (b : Byte) : Prop :=
  0x30 ≤ b.toNat ∧ b.toNat ≤ 0x39

end Sys2Proof.Safety
end

