-- ==== Sys2Proof/Certificates/Slice0/Obligations.lean ====
section
/-! DEFINITION. The statements for the provers, each from the numbered rules of spec/. -/

open Sys2Proof Sys2Proof.Machine Sys2Proof.Safety

/-! Encoding. -/

/-- R92 and R96 (the phase codes and their operations) and the example of R101, with two words of
95_test_vectors: a few words decode to the operation the spec writes beside them. -/
def Obligations.SpecWordsDecode : Prop :=
  decode (.req 0x0000300010000#50) = .format 0x00010000#32 false 3#16 false ∧
  decode (.req 0x30003FFFFFFFF#50) = .format 0xFFFFFFFF#32 true 3#16 true ∧
  decode (.req 0x0FFFF00018000#50) = .format 0x00018000#32 false 0xFFFF#16 false ∧
  decode (.ph 0b000#3) = .idle ∧ decode (.ph 0b001#3) = .acq ∧ decode (.ph 0b010#3) = .idx ∧
  decode (.ph 0b011#3) = .fdg ∧ decode (.ph 0b100#3) = .rnd ∧ decode (.ph 0b101#3) = .asm ∧
  decode (.ph 0b110#3) = .done ∧ decode (.ph 0b111#3) = .faulted

/-- R91: the four fields of a request word, read by division of the word as a number. -/
def Obligations.RequestFieldsByPosition : Prop :=
  ∀ (w : ReqWord) (value : Word) (neg : Bool) (fd : Half) (ms : Bool),
    decode (.req w) = .format value neg fd ms ↔
      value.toNat = w.toNat % 2 ^ 32 ∧ fd.toNat = w.toNat / 2 ^ 32 % 2 ^ 16 ∧
      neg.toNat = w.toNat / 2 ^ 48 % 2 ∧ ms.toNat = w.toNat / 2 ^ 49

/-- 30_encoding: every well-formed operation is read back from its encoding, as a word and as bytes. -/
def Obligations.DecodeOfEncode : Prop :=
  ∀ i : Instr, WellFormed i = true → decode (encode i) = i ∧ decodeBytes (encodeBytes i) = .ok i

/-- R98, R99: no word is reserved and each has one meaning: every word is the encoding of what it decodes to. -/
def Obligations.EncodeOfDecode : Prop :=
  ∀ e : Encoded, WellFormed (decode e) = true ∧ encode (decode e) = e

/-- A list of bytes that the decoder accepts is the byte form of what it decodes to: no stray bit is read over. The
byte form is the model's (log 11). -/
def Obligations.AcceptedBytesAreCanonical : Prop :=
  ∀ (bs : List Byte) (i : Instr), decodeBytes bs = .ok i → bs = encodeBytes i

/-! The step. -/

/-- A step runs the decoded operation: the one `PHASE` selects where the host is silent or quiet, the request word
where the host gives START, and reset where the host asserts it (R92, R130; the list of host moves is the model's,
log 1). -/
def Obligations.StepRunsDecodedOperation : Prop :=
  ∀ (s : State) (rest : List HostInput) (r : ReqWord),
    (s.inputs = [] → step s = exec (decode (.ph (phaseCode s.phase))) s) ∧
    (s.inputs = .quiet :: rest →
      step s = exec (decode (.ph (phaseCode s.phase))) { s with inputs := rest }) ∧
    (s.inputs = .start r :: rest → step s = exec (decode (.req r)) { s with inputs := rest }) ∧
    (s.inputs = .reset :: rest → step s = .next ({ s with inputs := rest } : State).resetInput)

/-- Every step answers a next state: no hang, no stop (R227, R216). -/
def Obligations.EveryStepAnswersNext : Prop :=
  ∀ s : State, ∃ t, step s = .next t

/-- A word of the opcode table put where the step fetches is the next operation: a request runs in the very state, an
operation of the engine in that state with its phase set (log 13). -/
def Obligations.PlacedWordRunsNext : Prop :=
  ∀ (s : State) (nbits w : Nat) (i : Instr), decodeTableWord nbits w = some i →
    (hostSelectable i = true → step (s.withFetchWord nbits w) = exec i s) ∧
    (hostSelectable i = false →
      ∃ p, decode (.ph (phaseCode p)) = i ∧ step (s.withFetchWord nbits w) = exec i { s with phase := p })

/-- R127: the phase moves only as the table of transitions says. -/
def Obligations.PhaseMovesAsTheTableSays : Prop :=
  ∀ s t : State, step s = .next t → transition (hostMove s) s.phase t.phase = true

/-- Derived from R123: in `IDLE` only START or reset changes the state, and `IDLE` is entered by reset only. That the
host's move is taken from a list, `inputs := s.inputs.tail`, is the model's (log 1, DESIGN CHOICE) and in no rule. -/
def Obligations.IdleIsLeftByStartAndEnteredByReset : Prop :=
  ∀ s t : State, step s = .next t →
    (s.phase = .idle → hostMove s = .quiet → t = { s with inputs := s.inputs.tail }) ∧
    (t.phase = .idle → s.phase ≠ .idle → hostMove s = .reset)

/-- R42, the columns 'written by', and R20 to R30: which steps can change which register, in every state. -/
def Obligations.RegistersChangeOnlyByTheirWriters : Prop :=
  ∀ s t : State, step s = .next t → hostMove s ≠ .reset →
    ((t.value ≠ s.value ∨ t.neg ≠ s.neg ∨ t.fd ≠ s.fd ∨ t.ms ≠ s.ms) →
      (s.phase = .idle ∨ s.phase = .done) ∧ t.phase = .acq) ∧
    ((t.work ≠ s.work ∨ t.ndig ≠ s.ndig ∨ t.dpp ≠ s.dpp) → s.phase = .frac) ∧
    (t.firstCur ≠ s.firstCur → s.phase = .acq ∨ s.phase = .int ∨ s.phase = .round ∨ s.phase = .asm) ∧
    (t.endCur ≠ s.endCur → s.phase = .acq ∨ s.phase = .frac) ∧
    (t.len ≠ s.len → s.phase = .asm ∧ t.phase = .done) ∧
    (t.db ≠ s.db → s.phase = .acq ∨ s.phase = .int ∨ s.phase = .frac ∨ s.phase = .round) ∧
    (t.out ≠ s.out → s.phase = .acq ∨ (s.phase = .asm ∧ t.phase = .done) ∨ t.phase = .faulted) ∧
    (t.owner ≠ s.owner → s.phase = .acq ∨ (s.phase = .asm ∧ t.phase = .done) ∨ t.phase = .faulted) ∧
    ((t.fault ≠ s.fault ∨ t.faultPh ≠ s.faultPh) → s.phase ≠ .faulted ∧ t.phase = .faulted)

/-! START and the hold phases. -/

/-- R120: in `IDLE` and `DONE` START latches the four fields, sets `PHASE` to `ACQ`, and changes nothing else. -/
def Obligations.StartLatchesTheRequest : Prop :=
  ∀ (s : State) (r : ReqWord), (s.phase = .idle ∨ s.phase = .done) →
    exec (decode (.req r)) s = .next
      { s with
        value := r.extractLsb' 0 32
        fd := r.extractLsb' 32 16
        neg := r.getLsbD 48
        ms := r.getLsbD 49
        phase := .acq }

/-- R121: in every other phase START changes no state. -/
def Obligations.StartIsDroppedWhenBusy : Prop :=
  ∀ (s : State) (value : Word) (neg : Bool) (fd : Half) (ms : Bool), s.phase ≠ .idle → s.phase ≠ .done →
    exec (.format value neg fd ms) s = .next s

/-- Derived from R123, R124, R125: a hold operation changes nothing in its own phase, and in a hold phase a silent or quiet
host leaves the state as it is. That a hold operation changes nothing in every other phase too is the model's choice
(log 10, DESIGN CHOICE), and so is the list the host's move is taken from, `inputs := s.inputs.tail` (log 1). -/
def Obligations.HoldPhasesHold : Prop :=
  ∀ s : State, exec .idle s = .next s ∧ exec .done s = .next s ∧ exec .faulted s = .next s ∧
    ((s.phase = .idle ∨ s.phase = .done ∨ s.phase = .faulted) → hostMove s = .quiet →
      step s = .next { s with inputs := s.inputs.tail })

/-- R97, R127: an engine operation asked for outside the phase that selects it does nothing (DESIGN CHOICE, log 10: the
spec has no such step). -/
def Obligations.OperationsWaitForTheirPhase : Prop :=
  ∀ s : State,
    (s.phase ≠ .acq → exec .acq s = .next s) ∧ (s.phase ≠ .int → exec .idx s = .next s) ∧
    (s.phase ≠ .frac → exec .fdg s = .next s) ∧ (s.phase ≠ .round → exec .rnd s = .next s) ∧
    (s.phase ≠ .asm → exec .asm s = .next s)

/-! ACQ. -/

/-- R122, R241: a granted `ACQ` holds fresh storage, clears the buffer, sets both cursors to the boundary and goes on to
`INT`; every storage of the host stays the host's; nothing else changes but the provider's answer being taken (log 2). -/
def Obligations.AcqGrantedStartsTheRequest : Prop :=
  ∀ (s : State) (rest : List Bool), s.phase = .acq → s.answers = true :: rest →
    exec .acq s = .next
      { s with
        out := freshStorage s.draws
        owner := .engine
        db := Vector.replicate 12 0#4
        firstCur := 5#4
        endCur := 5#4
        phase := .int
        kept := hostStores s
        answers := rest
        draws := s.draws + 1 }

/-- R211, R216: a denied `ACQ` raises `NoBuffer`: code 1, phase 1, no storage held, `FAULTED`; no other register and no
storage of the host is written (storage held as log 7 says, the answer listed as log 2 says). -/
def Obligations.AcqDeniedRaisesNoBuffer : Prop :=
  ∀ (s : State) (rest : List Bool), s.phase = .acq → s.answers = false :: rest →
    faultCodeBits .nobuf = 1#2 ∧ phaseCode .acq = 1#3 ∧
    exec .acq s = .next
      { s with
        fault := .nobuf
        faultPh := .acq
        owner := .none
        phase := .faulted
        out := []
        kept := hostStores s
        answers := rest
        draws := s.draws + 1 }

/-- R41, R122, decision D22: where no answer is listed the provider's answer is a free value, and either answer is taken as
such: the state is that of a grant or of a denial (the form is the model's, log 2). -/
def Obligations.AcqWithoutListedAnswerIsEither : Prop :=
  ∀ s : State, s.phase = .acq → s.answers = [] →
    ∃ g : Bool, g = Config.grant s.draws ∧
      exec .acq s = exec .acq { s with answers := [g] }

/-! IDX. -/

/-- R150: from any `FIRST` with room for the digits, `IDX` moves `FIRST` left by their number, writes them into the slots it
moved over and no other slot (none for a zero integer part), and changes no other register. -/
def Obligations.IdxStoresTheDigitsLeftOfFirst : Prop :=
  ∀ s : State, s.phase = .int →
    digitsOfInteger (integerPart s.value).toNat ≤ s.firstCur.toNat → s.firstCur.toNat ≤ 12 →
    ∃ db' : DigitBuffer,
      exec .idx s = .next
        { s with
          firstCur := BitVec.ofNat 4 (s.firstCur.toNat - digitsOfInteger (integerPart s.value).toNat)
          db := db'
          phase := .frac } ∧
      ((integerPart s.value).toNat = 0 → db' = s.db) ∧
      ((integerPart s.value).toNat ≠ 0 →
        slotsFrom db' (s.firstCur.toNat - digitsOfInteger (integerPart s.value).toNat)
            (digitsOfInteger (integerPart s.value).toNat) = (integerPart s.value).toNat ∧
        ∀ i, s.firstCur.toNat - digitsOfInteger (integerPart s.value).toNat ≤ i → i < s.firstCur.toNat →
          (slot db' i).toNat ≤ 9) ∧
      ∀ i, i < s.firstCur.toNat - digitsOfInteger (integerPart s.value).toNat ∨ s.firstCur.toNat ≤ i →
        slot db' i = slot s.db i

/-- R151: after `ACQ`, `IDX` leaves the integer part in slots 0..4, right-aligned, `FIRST` at its first digit. -/
def Obligations.IdxRightAlignsTheIntegerPart : Prop :=
  ∀ s : State, s.phase = .int → AfterAcq s →
    ∃ t : State, exec .idx s = .next t ∧
      t = { s with firstCur := t.firstCur, db := t.db, phase := .frac } ∧
      t.firstCur.toNat = 5 - digitsOfInteger (integerPart s.value).toNat ∧ t.endCur = 5#4 ∧
      slotsValue t.db 5 = (integerPart s.value).toNat ∧ DigitsOk t.db ∧
      ZeroBelow t.db t.firstCur.toNat ∧ ZeroFrom t.db 5 ∧
      ((integerPart s.value).toNat ≠ 0 → slot t.db t.firstCur.toNat ≠ 0#4)

/-! FDG. -/

/-- R160: the digit count, by the rule's own table. -/
def Obligations.DigitCountByTheTable : Prop :=
  ∀ fd : Int,
    (fd ≤ 0 → digitCount false fd = 0) ∧
    (1 ≤ fd → fd ≤ 5 → (digitCount false fd : Int) = fd) ∧
    (6 ≤ fd → digitCount false fd = 6) ∧
    (fd ≤ 0 → digitCount true fd = 3) ∧
    digitCount true 1 = 4 ∧ digitCount true 2 = 5 ∧
    (3 ≤ fd → digitCount true fd = 6)

/-- R161, R163 (and R162 as its effect): from any `END` with room for the digits, `FDG` appends the first `N` decimal places
of the fraction, leaves the exact remainder in `WORK[15:0]`, sets `NDIG` and `DPP`, writes no slot outside the ones it
moved over, and changes no other register. -/
def Obligations.FdgAppendsTheDecimalPlaces : Prop :=
  ∀ s : State, s.phase = .frac →
    (digitCount s.ms s.fd.toInt = 0 ∨ s.endCur.toNat + digitCount s.ms s.fd.toInt ≤ 11) →
    ∃ (db' : DigitBuffer) (work' : Word),
      exec .fdg s = .next
        { s with
          ndig := BitVec.ofNat 3 (digitCount s.ms s.fd.toInt)
          dpp := if s.ms then 8#4 else 5#4
          work := work'
          endCur := BitVec.ofNat 4 (s.endCur.toNat + digitCount s.ms s.fd.toInt)
          db := db'
          phase := .round } ∧
      slotsFrom db' s.endCur.toNat (digitCount s.ms s.fd.toInt) =
        (fractionPart s.value).toNat * 10 ^ digitCount s.ms s.fd.toInt / 65536 ∧
      work'.toNat % 65536 = (fractionPart s.value).toNat * 10 ^ digitCount s.ms s.fd.toInt % 65536 ∧
      (∀ i, i < s.endCur.toNat ∨ s.endCur.toNat + digitCount s.ms s.fd.toInt ≤ i →
        slot db' i = slot s.db i) ∧
      (∀ i, s.endCur.toNat ≤ i → i < s.endCur.toNat + digitCount s.ms s.fd.toInt →
        (slot db' i).toNat ≤ 9) ∧
      (digitCount s.ms s.fd.toInt = 0 → work'.toNat = (fractionPart s.value).toNat) ∧
      (1 ≤ digitCount s.ms s.fd.toInt →
        work'.toNat / 65536 = (slot db' (s.endCur.toNat + digitCount s.ms s.fd.toInt - 1)).toNat)

/-! RND. -/

/-- R170, R171, R173: a remainder below one half changes nothing but `PHASE`; from one half on the number in the slots
left of `END` grows by one, digit by digit, where it has room, and nothing changes but those slots, `FIRST` and `PHASE`. -/
def Obligations.RndAddsOneFromHalfUp : Prop :=
  ∀ s : State, s.phase = .round →
    (s.work.toNat % 65536 < 32768 → exec .rnd s = .next { s with phase := .asm }) ∧
    (32768 ≤ s.work.toNat % 65536 → 1 ≤ s.endCur.toNat → s.endCur.toNat ≤ 12 →
      (∀ i, i < s.endCur.toNat → (slot s.db i).toNat ≤ 9) →
      slotsValue s.db s.endCur.toNat + 1 < 10 ^ s.endCur.toNat →
      ∃ (db' : DigitBuffer) (first' : Cursor),
        exec .rnd s = .next { s with db := db', firstCur := first', phase := .asm } ∧
        slotsValue db' s.endCur.toNat = slotsValue s.db s.endCur.toNat + 1 ∧
        (∀ i, i < s.endCur.toNat → (slot db' i).toNat ≤ 9) ∧
        (∀ i, s.endCur.toNat ≤ i → slot db' i = slot s.db i) ∧
        first'.toNat ≤ s.firstCur.toNat)

/-- R172: a carry that runs through a window of nines moves `FIRST` one slot left, onto a 1, and leaves zeros behind; any
other carry leaves `FIRST` where it was. -/
def Obligations.RndGrowsTheWindowByOneSlot : Prop :=
  ∀ s : State, s.phase = .round → 32768 ≤ s.work.toNat % 65536 → s.endCur.toNat ≤ 12 →
    s.firstCur.toNat < s.endCur.toNat → (∀ i, i < s.endCur.toNat → (slot s.db i).toNat ≤ 9) →
    ZeroBelow s.db s.firstCur.toNat →
    ((∀ i, s.firstCur.toNat ≤ i → i < s.endCur.toNat → slot s.db i = 9#4) → 1 ≤ s.firstCur.toNat →
      ∃ db' : DigitBuffer,
        exec .rnd s = .next
          { s with db := db', firstCur := BitVec.ofNat 4 (s.firstCur.toNat - 1), phase := .asm } ∧
        slot db' (s.firstCur.toNat - 1) = 1#4 ∧ ZeroBelow db' (s.firstCur.toNat - 1) ∧
        ∀ i, s.firstCur.toNat ≤ i → i < s.endCur.toNat → slot db' i = 0#4) ∧
    ((∃ i, s.firstCur.toNat ≤ i ∧ i < s.endCur.toNat ∧ slot s.db i ≠ 9#4) →
      ∃ db' : DigitBuffer, exec .rnd s = .next { s with db := db', phase := .asm })

/-! ASM. -/

/-- R180, R181, R182: `f` being where trimming stops, `ASM` writes the sign, the digits, the point and the terminator at rising
offsets from 0 where the storage has room for them, sets `FIRST` and `LEN`, hands the storage to the host and leaves
every later byte and every other register alone; where an offset is missing it takes `BufferOverrun`, no byte written. -/
def Obligations.AsmWritesTheWindowOrOverruns : Prop :=
  ∀ (s : State) (f : Nat), s.phase = .asm → s.dpp.toNat ≤ s.endCur.toNat → s.endCur.toNat ≤ 12 →
    s.firstCur.toNat ≤ f → f < s.dpp.toNat →
    (∀ i, s.firstCur.toNat ≤ i → i < f → slot s.db i = 0#4) →
    (f + 1 = s.dpp.toNat ∨ slot s.db f ≠ 0#4) →
    ((∀ off, off ≤ (windowText s.neg s.db f s.dpp.toNat s.endCur.toNat).length →
        (s.out.read off).isSome = true) →
      ∃ out' : Memory,
        exec .asm s = .next
          { s with
            firstCur := BitVec.ofNat 4 f
            out := out'
            len := BitVec.ofNat 4 (windowText s.neg s.db f s.dpp.toNat s.endCur.toNat).length
            owner := .host
            phase := .done } ∧
        (∀ off, off < (windowText s.neg s.db f s.dpp.toNat s.endCur.toNat).length →
          out'.read off = (windowText s.neg s.db f s.dpp.toNat s.endCur.toNat)[off]?) ∧
        out'.read (windowText s.neg s.db f s.dpp.toNat s.endCur.toNat).length = some 0x00#8 ∧
        ∀ off, (windowText s.neg s.db f s.dpp.toNat s.endCur.toNat).length < off →
          out'.read off = s.out.read off) ∧
    ((∃ off, off ≤ (windowText s.neg s.db f s.dpp.toNat s.endCur.toNat).length ∧ s.out.read off = none) →
      ∃ t, exec .asm s = .next t ∧ Overruns s t ∧ t.db = s.db ∧ t.firstCur = BitVec.ofNat 4 f)

/-! Faults and reset. -/

/-- R216 (with the storage held as log 7 says, the model's choice): fault entry writes the code, the phase of the operation, `OWNER` and `PHASE`, abandons the storage held (a storage
of the host's stays the host's), and writes nothing else. -/
def Obligations.FaultEntryWritesItsFourRegisters : Prop :=
  ∀ (s : State) (e : EngineException),
    s.raise e =
      { s with
        fault := exceptionCode e
        faultPh := s.phase
        owner := .none
        phase := .faulted
        out := []
        kept := hostStores s } ∧
    faultCodeBits (exceptionCode .noBuffer) = 1#2 ∧ faultCodeBits (exceptionCode .bufferOverrun) = 2#2

/-- R212: a `FIRST` without room for the digits, an `END` without room for them and a carry out of slot 0 each end in
`BufferOverrun` taken in that operation's phase (the guard of `ASM` is in `AsmWritesTheWindowOrOverruns`). -/
def Obligations.GuardsTakeBufferOverrun : Prop :=
  ∀ s : State,
    (s.phase = .int → s.firstCur.toNat < digitsOfInteger (integerPart s.value).toNat →
      ∃ t, exec .idx s = .next t ∧ Overruns s t) ∧
    (s.phase = .frac → 1 ≤ digitCount s.ms s.fd.toInt → 11 < s.endCur.toNat + digitCount s.ms s.fd.toInt →
      ∃ t, exec .fdg s = .next t ∧ Overruns s t) ∧
    (s.phase = .round → 32768 ≤ s.work.toNat % 65536 → 1 ≤ s.endCur.toNat → s.endCur.toNat ≤ 12 →
      (∀ i, i < s.endCur.toNat → slot s.db i = 9#4) →
      ∃ t, exec .rnd s = .next t ∧ Overruns s t)

/-- R217: no operation and no START clears `FAULT`; and where the sequencer's invariant holds, a fault and its phase stay as
they are until reset. -/
def Obligations.FaultRegistersAreSticky : Prop :=
  ∀ s t : State, step s = .next t → hostMove s ≠ .reset → s.fault ≠ .none →
    t.fault ≠ .none ∧ (ControlOk s → t.fault = s.fault ∧ t.faultPh = s.faultPh ∧ t.phase = .faulted)

/-- Derived from R218, R125: the only way out of `FAULTED` is reset; until then START is dropped and nothing of the engine
changes. That the host's move is taken from a list, `inputs := s.inputs.tail`, is the model's (log 1, DESIGN CHOICE). -/
def Obligations.FaultedIsLeftByResetOnly : Prop :=
  ∀ s : State, s.phase = .faulted → hostMove s ≠ .reset →
    step s = .next { s with inputs := s.inputs.tail }

/-- Derived from R240 and R242: the reset input, in any phase: `IDLE`, no fault, no owner, no storage held; the host's
storages, held as log 7 says, are not affected. That the host's further moves, the provider's listed answers and the draw
counter outlast reset is the model's choice (log 6, with log 1 and log 2, DESIGN CHOICE) and in no rule. -/
def Obligations.ResetInputStartsOver : Prop :=
  ∀ (s : State) (rest : List HostInput), s.inputs = .reset :: rest →
    ∃ t, step s = .next t ∧ t.phase = .idle ∧ t.fault = .none ∧ t.owner = .none ∧ t.out = [] ∧
      hostStores t = hostStores s ∧ t.inputs = rest ∧ t.answers = s.answers ∧ t.draws = s.draws

/-- R242: what the spec fixes of the state after reset. -/
def Obligations.ResetStateAsTheSpecSays : Prop :=
  phaseCode State.reset.phase = 0#3 ∧ faultCodeBits State.reset.fault = 0#2 ∧ State.reset.owner = .none ∧
    State.reset.out = []

/-! What the host sees. -/

/-- R45, R128, R244: the status is readable at any time, the result in `DONE` only and no further than its terminator, and
the answer to a poll is that of the phase. -/
def Obligations.HostReadsTheResultInDoneOnly : Prop :=
  ∀ (s : State) (off : Nat),
    hostReadPhase s = phaseCode s.phase ∧ hostReadFault s = faultCodeBits s.fault ∧
    (s.fault ≠ .none → hostReadFaultPh s = some (phaseCode s.faultPh)) ∧
    (s.phase ≠ .done → hostReadLen s = none ∧ hostReadOut s off = none) ∧
    (s.phase = .done → hostReadLen s = some s.len ∧
      (off ≤ s.len.toNat → hostReadOut s off = s.out.read off) ∧ (s.len.toNat < off → hostReadOut s off = none)) ∧
    (response s = .result ↔ s.phase = .done) ∧ (response s = .fail ↔ s.phase = .faulted)

/-! Invariants that every step keeps. -/

/-- Every step keeps the storages in canonical form, in every state. -/
def Obligations.StorageStaysCanonical : Prop :=
  ∀ s t : State, MemoryOk s → step s = .next t → MemoryOk t

/-- Every step keeps a storage whole while somebody owns it, and the owner and the fault registers in step with the phase
(R38, R40, R210, R217): these need no premise on the datapath. -/
def Obligations.OwnershipAndFaultsStayInStep : Prop :=
  ∀ s t : State, StorageOk s → ControlOk s → step s = .next t → StorageOk t ∧ ControlOk t

/-- The invariant holds right after reset. -/
def Obligations.ResetSatisfiesTheInvariant : Prop :=
  Inv State.reset

/-- R43, R200, R201: the invariant of the whole engine, with the exact number in the buffer after each stage and the exact
bytes in `DONE`, is kept by every step, whatever the host and the provider do. -/
def Obligations.EveryStepKeepsTheInvariant : Prop :=
  ∀ s t : State, Inv s → step s = .next t → Inv t

/-- R200: from a state that meets the invariant no guard fires. -/
def Obligations.NoGuardFires : Prop :=
  ∀ s t : State, Inv s → step s = .next t → s.fault ≠ .overrun → t.fault ≠ .overrun

/-- R43: after `FDG` the digits never number more than 11 and the point lies strictly inside the window or at its right
edge, in every state that meets the invariant. -/
def Obligations.WindowAndPointStayInRange : Prop :=
  ∀ s : State, Inv s → (s.phase = .round ∨ s.phase = .asm ∨ s.phase = .done) →
    s.endCur.toNat - s.firstCur.toNat ≤ 11 ∧ s.firstCur.toNat < s.dpp.toNat ∧ s.dpp.toNat ≤ s.endCur.toNat

/-- R40: no step ever changes a storage the host owns; a completed `ASM` adds one. -/
def Obligations.HostStoragesAreNeverTouched : Prop :=
  ∀ s t : State, ControlOk s → step s = .next t →
    hostStores t = hostStores s ∨
      (s.phase = .asm ∧ t.phase = .done ∧ hostStores t = t.out :: hostStores s)

/-! A request from START to its end. -/

/-- Derived from R126, R131, R191 and R77: a granted request runs its six steps to `DONE`, whatever the registers held
before, and delivers exactly the bytes of the closed form. The bytes after the terminator are the ones the provider's
storage came with, in the model's form of a free value (log 3), and the storages the host had stay as they were, in the
form of log 7; the grant is listed as log 2 says and the host's moves as log 1 says (all DESIGN CHOICE). -/
def Obligations.GrantedRequestDeliversTheClosedForm : Prop :=
  ∀ (s : State) (r : ReqWord), GrantedRequest s r →
    ∃ t, RunsTo s t ∧ Delivers t (closedBytes (reqValue r) (reqNeg r) (reqDigits r) (reqMs r)) ∧
      (∀ off, t.len.toNat < off → off < Config.outCap → t.out.read off = some (Config.initByte s.draws off)) ∧
      hostStores t = t.out :: hostStores s

/-- R126, R211: a denied request ends in `FAULTED` after two steps with `FAULT = NOBUF`, and no byte is written anywhere (the
denial is listed as log 2 says, the host's storages are held as log 7 says). -/
def Obligations.DeniedRequestEndsFaulted : Prop :=
  ∀ (s : State) (r : ReqWord), Requests s r 1 → s.answers.head? = some false →
    ∃ t, Host.Core.run core 2 s = .next t ∧ t.phase = .faulted ∧ t.fault = .nobuf ∧ t.faultPh = .acq ∧
      t.owner = .none ∧ hostStores t = hostStores s ∧ t.db = s.db ∧ t.firstCur = s.firstCur ∧
      t.endCur = s.endCur ∧ t.work = s.work ∧ t.len = s.len

/-- R129: requests do not interact: the result depends on the request word alone, whatever came before. -/
def Obligations.RequestsDoNotInteract : Prop :=
  ∀ (s s' : State) (r : ReqWord), GrantedRequest s r → GrantedRequest s' r →
    ∃ t t', RunsTo s t ∧ RunsTo s' t' ∧ t.len = t'.len ∧ resultBytes t = resultBytes t'

/-- R196: two requests that differ in `negative` alone give results that differ by a leading '-' alone. -/
def Obligations.SignOnlyPrependsMinus : Prop :=
  ∀ (s s' : State) (r r' : ReqWord), GrantedRequest s r → GrantedRequest s' r' →
    reqValue r' = reqValue r → reqDigits r' = reqDigits r → reqMs r' = reqMs r →
    reqNeg r = false → reqNeg r' = true →
    ∃ t t', RunsTo s t ∧ RunsTo s' t' ∧ resultBytes t' = some 0x2D#8 :: resultBytes t

/-- R100: requests that agree in `value`, `neg`, `ms` and in the effective digit count give the same bytes. -/
def Obligations.EquivalentRequestsAgree : Prop :=
  ∀ (s s' : State) (r r' : ReqWord), GrantedRequest s r → GrantedRequest s' r' →
    reqValue r' = reqValue r → reqNeg r' = reqNeg r → reqMs r' = reqMs r →
    digitCount (reqMs r') (reqDigits r') = digitCount (reqMs r) (reqDigits r) →
    ∃ t t', RunsTo s t ∧ RunsTo s' t' ∧ resultBytes t = resultBytes t'

/-- R193: at zero places the result is the numeral of the integer part, of the next integer when the fraction is at least
one half, with '-' before it when `neg` is set, and no point. -/
def Obligations.ZeroPlacesPrintTheRoundedInteger : Prop :=
  ∀ (s : State) (r : ReqWord), GrantedRequest s r → reqDigits r ≤ 0 → reqMs r = false →
    ∃ t, RunsTo s t ∧
      Delivers t ((if reqNeg r then [0x2D#8] else []) ++
        numeral (if (fractionPart (reqValue r)).toNat < 0x8000 then (integerPart (reqValue r)).toNat
          else (integerPart (reqValue r)).toNat + 1) ++ [0x00#8])

/-- R195: zero prints as "0", or "0." and as many zeros as places are shown, with '-' before it when `neg` is set. -/
def Obligations.ZeroPrintsAsZero : Prop :=
  ∀ (s : State) (r : ReqWord), GrantedRequest s r → reqValue r = 0#32 →
    ∃ t, RunsTo s t ∧
      Delivers t ((if reqNeg r then [0x2D#8] else []) ++ 0x30#8 ::
        (if shownAfter (reqDigits r) (reqMs r) = 0 then []
          else 0x2E#8 :: List.replicate (shownAfter (reqDigits r) (reqMs r)) 0x30#8) ++ [0x00#8])

/-- R183, R184, R197, R198: the shape of every result: an optional '-', one to eight digits with no superfluous leading zero, and,
where places are shown, a point and exactly `NDIG` of them (`NDIG - 3` in millisecond mode). -/
def Obligations.ResultHasTheGrammarsShape : Prop :=
  ∀ (s : State) (r : ReqWord), GrantedRequest s r →
    ∃ (t : State) (whole places : List Byte), RunsTo s t ∧
      Delivers t ((if reqNeg r then [0x2D#8] else []) ++ whole ++
        (if places = [] then [] else 0x2E#8 :: places) ++ [0x00#8]) ∧
      1 ≤ whole.length ∧ whole.length ≤ 8 ∧ (∀ b ∈ whole, IsDigit b) ∧
      (whole = [0x30#8] ∨ whole.head? ≠ some 0x30#8) ∧ (∀ b ∈ places, IsDigit b) ∧
      places.length = (if reqMs r then t.ndig.toNat - 3 else t.ndig.toNat) ∧
      t.ndig.toNat = digitCount (reqMs r) (reqDigits r) ∧ t.ndig.toNat ≤ 6

/-- R199: no result is longer than 13 characters, so 14 bytes hold it with its terminator, and none is empty. -/
def Obligations.NoResultNeedsMoreThanFourteenBytes : Prop :=
  ∀ (s : State) (r : ReqWord), GrantedRequest s r →
    ∃ t, RunsTo s t ∧ 1 ≤ t.len.toNat ∧ t.len.toNat ≤ 13 ∧ t.endCur.toNat - t.firstCur.toNat ≤ 11
end

