-- ==== Sys2Proof/Laws/Memory.lean ====
section
/-! SUPPORT. What reading, writing and handing over an output storage do, each said once. -/

namespace Sys2Proof.Machine

@[simp] theorem Memory.read_nil (off : Nat) : Memory.read [] off = none := rfl

theorem Memory.read_cons (a : Nat) (v : Byte) (m : Memory) (off : Nat) :
    Memory.read ((a, v) :: m) off = if off = a then some v else Memory.read m off := rfl

theorem Memory.read_write_same (m : Memory) (off : Nat) (v : Byte) :
    (m.write off v).read off = some v := by
  induction m with
  | nil => simp [Memory.write, Memory.read_cons]
  | cons c m ih =>
    obtain ⟨a, w⟩ := c
    simp only [Memory.write]
    split
    · simp [Memory.read_cons]
    · split
      · simp [Memory.read_cons, *]
      · simp [Memory.read_cons, *]

theorem Memory.read_write_other (m : Memory) {off other : Nat} (v : Byte) (h : other ≠ off) :
    (m.write off v).read other = m.read other := by
  induction m with
  | nil => simp [Memory.write, Memory.read_cons, h]
  | cons c m ih =>
    obtain ⟨a, w⟩ := c
    simp only [Memory.write]
    split
    · simp [Memory.read_cons, h]
    · split
      · subst_vars; simp [Memory.read_cons, h]
      · simp [Memory.read_cons, ih]

theorem Memory.read_write (m : Memory) (off other : Nat) (v : Byte) :
    (m.write off v).read other = if other = off then some v else m.read other := by
  split
  · subst_vars; exact m.read_write_same _ v
  · exact m.read_write_other v ‹_›

/-- Canonical form, taken apart at the head: the first offset lies below every other. -/
theorem Memory.wf_cons (a : Nat) (v : Byte) (m : Memory) :
    Memory.wf ((a, v) :: m) = true ↔ (∀ c ∈ m.head?, a < c.1) ∧ Memory.wf m = true := by
  cases m with
  | nil => simp [Memory.wf]
  | cons c m => obtain ⟨b, w⟩ := c; simp [Memory.wf]

/-- The head of a written storage is the old head or the written cell. -/
theorem Memory.head_write (m : Memory) (off : Nat) (v : Byte) :
    ∀ c ∈ (m.write off v).head?, c.1 = off ∨ ∃ d ∈ m.head?, c.1 = d.1 := by
  cases m with
  | nil => simp [Memory.write]
  | cons c m =>
    obtain ⟨a, w⟩ := c
    simp only [Memory.write]
    split
    · simp
    · split <;> simp

/-- A write keeps the canonical form. -/
theorem Memory.wf_write (m : Memory) (off : Nat) (v : Byte) (h : m.wf = true) :
    (m.write off v).wf = true := by
  induction m with
  | nil => rfl
  | cons c m ih =>
    obtain ⟨a, w⟩ := c
    have hm := (Memory.wf_cons a w m).mp h
    simp only [Memory.write]
    split
    · exact (Memory.wf_cons _ _ _).mpr ⟨by simpa, h⟩
    · split
      · exact (Memory.wf_cons _ _ _).mpr hm
      · refine (Memory.wf_cons _ _ _).mpr ⟨fun c hc => ?_, ih hm.2⟩
        rcases Memory.head_write m off v c hc with h1 | ⟨d, hd, h1⟩
        · omega
        · have := hm.1 d hd
          omega

theorem Memory.wf_writeAll (bs : List Byte) (m : Memory) (off : Nat) (h : m.wf = true) :
    (m.writeAll off bs).wf = true := by
  induction bs generalizing m off with
  | nil => exact h
  | cons b bs ih => exact ih _ _ (m.wf_write off b h)

/-- Bytes written one after the other: each is read back at its offset, every other offset as before. -/
theorem Memory.read_writeAll (bs : List Byte) (m : Memory) (off other : Nat) :
    (m.writeAll off bs).read other =
      if off ≤ other ∧ other < off + bs.length then bs[other - off]? else m.read other := by
  induction bs generalizing m off with
  | nil => simp [Memory.writeAll]
  | cons b bs ih =>
    rw [Memory.writeAll, ih, Memory.read_write]
    rcases Nat.lt_trichotomy other off with h | h | h
    · rw [if_neg (by omega), if_neg (by omega), if_neg (by simp; omega)]
    · subst h; simp
    · have : other - off = (other - (off + 1)) + 1 := by omega
      by_cases hb : other < off + 1 + bs.length
      · rw [if_pos ⟨by omega, hb⟩, if_pos ⟨by omega, by simp; omega⟩, this, List.getElem?_cons_succ]
      · rw [if_neg (by omega), if_neg (by omega), if_neg (by simp; omega)]

theorem Memory.covers_iff (m : Memory) (n : Nat) :
    m.covers n = true ↔ ∀ off < n, (m.read off).isSome = true := by
  simp [Memory.covers]

/-- Writing where the storage has room adds no offset and takes none away. -/
theorem Memory.isSome_read_writeAll (bs : List Byte) (m : Memory) (h : m.covers bs.length = true) (off : Nat) :
    ((m.writeAll 0 bs).read off).isSome = (m.read off).isSome := by
  rw [Memory.read_writeAll]
  split
  · have hlt : off < bs.length := by omega
    rw [(m.covers_iff _).mp h off hlt]
    simp [hlt]
  · rfl

theorem read_freshCells (d n off other : Nat) :
    (freshCells d off n).read other =
      if off ≤ other ∧ other < off + n then some (Config.initByte d other) else none := by
  induction n generalizing off with
  | zero => rw [freshCells, if_neg (by omega)]; rfl
  | succ n ih =>
    rw [freshCells, Memory.read_cons, ih]
    rcases Nat.lt_trichotomy other off with h | h | h
    · rw [if_neg (by omega), if_neg (by omega), if_neg (by omega)]
    · subst h; simp
    · by_cases hb : other < off + 1 + n
      · rw [if_neg (by omega), if_pos ⟨by omega, hb⟩, if_pos ⟨by omega, by omega⟩]
      · rw [if_neg (by omega), if_neg (by omega), if_neg (by omega)]

theorem wf_freshCells (d n off : Nat) : (freshCells d off n).wf = true := by
  induction n generalizing off with
  | zero => rfl
  | succ n ih =>
    refine (Memory.wf_cons _ _ _).mpr ⟨?_, ih _⟩
    cases n <;> simp [freshCells]

/-- Every byte of a granted storage is the free value of its draw and offset (R77). -/
theorem read_freshStorage (d off : Nat) :
    (freshStorage d).read off = if off < Config.outCap then some (Config.initByte d off) else none := by
  simp [freshStorage, read_freshCells]

theorem wf_freshStorage (d : Nat) : (freshStorage d).wf = true :=
  wf_freshCells d _ _

theorem le_outCap : 14 ≤ Config.outCap := by
  unfold Config.outCap Config.minOutCap
  omega

/-- On a granted storage the guard of `ASM` is the rule's `need > OUT_CAP` (R182). -/
theorem covers_freshStorage (d n : Nat) : (freshStorage d).covers n = true ↔ n ≤ Config.outCap := by
  rw [Memory.covers_iff]
  simp only [read_freshStorage]
  constructor
  · intro h
    by_contra hc
    have := h Config.outCap (by omega)
    simp at this
  · intro h off ho
    rw [if_pos (by omega)]
    rfl

end Sys2Proof.Machine
end

