-- ==== Sys2Proof/Laws/Slots.lean ====
section
/-! SUPPORT. What reading and writing a slot of the digit buffer do, and the buffer read as a number. -/

namespace Sys2Proof.Machine

theorem slot_of_le (db : DigitBuffer) {i : Nat} (h : 12 ≤ i) : slot db i = 0#4 := by
  simp [slot, h]

theorem slot_setSlot (db : DigitBuffer) {i : Nat} (h : i < 12) (j : Nat) (v : Slot) :
    slot (setSlot db i v) j = if j = i then v else slot db j := by
  unfold slot setSlot
  rw [Vector.getElem?_setIfInBounds]
  by_cases hj : j = i
  · subst hj; simp [h]
  · rw [if_neg (Ne.symm hj), if_neg hj]

theorem slot_setSlot_same (db : DigitBuffer) {i : Nat} (h : i < 12) (v : Slot) :
    slot (setSlot db i v) i = v := by
  rw [slot_setSlot db h, if_pos rfl]

theorem slot_setSlot_other (db : DigitBuffer) {i j : Nat} (h : j ≠ i) (v : Slot) :
    slot (setSlot db i v) j = slot db j := by
  unfold slot setSlot
  rw [Vector.getElem?_setIfInBounds, if_neg (Ne.symm h)]

@[simp] theorem slot_zeroBuffer (i : Nat) : slot zeroBuffer i = 0#4 := by
  by_cases h : i < 12 <;> simp [slot, zeroBuffer, h]

/-- Two buffers with equal slots are equal. -/
theorem db_ext {a b : DigitBuffer} (h : ∀ i, i < 12 → slot a i = slot b i) : a = b := by
  apply Vector.ext
  intro i hi
  have := h i hi
  simpa [slot, hi] using this

end Sys2Proof.Machine

namespace Sys2Proof.Safety

open Sys2Proof.Machine

@[simp] theorem slotsFrom_zero (db : DigitBuffer) (lo : Nat) : slotsFrom db lo 0 = 0 := rfl

theorem slotsFrom_succ (db : DigitBuffer) (lo n : Nat) :
    slotsFrom db lo (n + 1) = slotsFrom db lo n * 10 + (slot db (lo + n)).toNat := rfl

/-- The number in a run of slots depends on those slots only. -/
theorem slotsFrom_congr {a b : DigitBuffer} {lo n : Nat}
    (h : ∀ i, lo ≤ i → i < lo + n → slot a i = slot b i) : slotsFrom a lo n = slotsFrom b lo n := by
  induction n with
  | zero => rfl
  | succ n ih =>
    rw [slotsFrom_succ, slotsFrom_succ, ih fun i h1 h2 => h i h1 (by omega), h (lo + n) (by omega) (by omega)]

/-- A run of slots taken apart: the left part counts in powers of ten. -/
theorem slotsFrom_add (db : DigitBuffer) (lo m n : Nat) :
    slotsFrom db lo (m + n) = slotsFrom db lo m * 10 ^ n + slotsFrom db (lo + m) n := by
  induction n with
  | zero => simp
  | succ n ih =>
    rw [← Nat.add_assoc, slotsFrom_succ, slotsFrom_succ, ih, Nat.pow_succ, Nat.add_assoc lo m n]
    ring

/-- Slots of 0 are worth nothing. -/
theorem slotsFrom_eq_zero {db : DigitBuffer} {lo n : Nat}
    (h : ∀ i, lo ≤ i → i < lo + n → slot db i = 0#4) : slotsFrom db lo n = 0 := by
  induction n with
  | zero => rfl
  | succ n ih =>
    rw [slotsFrom_succ, ih fun i h1 h2 => h i h1 (by omega), h (lo + n) (by omega) (by omega)]
    rfl

/-- Digits make a number of that many places. -/
theorem slotsFrom_lt {db : DigitBuffer} (h : DigitsOk db) (lo n : Nat) : slotsFrom db lo n < 10 ^ n := by
  induction n with
  | zero => simp
  | succ n ih =>
    have := h (lo + n)
    rw [slotsFrom_succ, Nat.pow_succ]
    omega

/-- Slots beyond the buffer read 0, so only its twelve slots need looking at. -/
theorem digitsOk_of_lt {db : DigitBuffer} (h : ∀ i, i < 12 → (slot db i).toNat ≤ 9) : DigitsOk db := by
  intro i
  by_cases hi : i < 12
  · exact h i hi
  · simp [slot_of_le db (by omega : 12 ≤ i)]

theorem zeroFrom_of_lt {db : DigitBuffer} {n : Nat} (h : ∀ i, i < 12 → n ≤ i → slot db i = 0#4) :
    ZeroFrom db n := by
  intro i hn
  by_cases hi : i < 12
  · exact h i hi hn
  · exact slot_of_le db (by omega)

theorem digitsOk_zeroBuffer : DigitsOk zeroBuffer := by
  intro i; simp

end Sys2Proof.Safety
end

