-- ==== Sys2Proof/Laws/Stages.lean ====
section
/-! SUPPORT. For each loop of a stage, one lemma that says where it can end and what it leaves alone; and what each arm of exec is. -/

namespace Sys2Proof.Machine

theorem dbCap_eq : Config.dbCap = 12 := rfl

/-- `IDX`'s loop ends left of where it began and writes only the slots it moved over. -/
theorem idxLoop_ok {first n : Nat} {db db' : DigitBuffer} {f : Nat} (h : idxLoop first n db = .ok (f, db')) :
    f < first ∧ first ≤ 12 ∧ ∀ i, i < f ∨ first ≤ i → slot db' i = slot db i := by
  induction first generalizing n db with
  | zero => simp [idxLoop] at h
  | succ first ih =>
    simp only [idxLoop] at h
    split at h
    · rename_i hc
      rw [dbCap_eq] at hc
      split at h
      · simp only [Except.ok.injEq, Prod.mk.injEq] at h
        obtain ⟨rfl, rfl⟩ := h
        exact ⟨by omega, by omega, fun i hi => slot_setSlot_other _ (by omega) _⟩
      · obtain ⟨h1, h2, h3⟩ := ih h
        refine ⟨by omega, by omega, fun i hi => ?_⟩
        rw [h3 i (by omega), slot_setSlot_other _ (by omega)]
    · simp at h

/-- `FDG`'s loop moves `END` by its count and writes only the slots it moved over. -/
theorem fdgLoop_ok {k : Nat} {g g' : Generation} (h : fdgLoop k g = .ok g') :
    g'.endAt = g.endAt + k ∧ (k = 0 ∨ g'.endAt ≤ 11) ∧
      ∀ i, i < g.endAt ∨ g'.endAt ≤ i → slot g'.db i = slot g.db i := by
  induction k generalizing g with
  | zero => simp only [fdgLoop, Except.ok.injEq] at h; subst h; simp
  | succ k ih =>
    simp only [fdgLoop] at h
    split at h
    · simp at h
    · obtain ⟨h1, h2, h3⟩ := ih h
      dsimp only at h1 h3
      refine ⟨by omega, by omega, fun i hi => ?_⟩
      rw [h3 i (by omega), slot_setSlot_other _ (by omega)]

/-- `FDG`'s loop completes exactly when its slots lie in the fraction's part of the buffer. -/
theorem fdgLoop_completes {k : Nat} {g : Generation} (h : k = 0 ∨ g.endAt + k ≤ 11) :
    ∃ g', fdgLoop k g = .ok g' := by
  induction k generalizing g with
  | zero => exact ⟨g, rfl⟩
  | succ k ih =>
    simp only [fdgLoop, if_neg (show ¬ g.endAt > 10 by omega)]
    exact ih (by dsimp only; omega)

/-- The carry chain ends at or left of where it began and writes only the slots between. -/
theorem carryLoop_ok {p q : Nat} {db db' : DigitBuffer} (h : carryLoop p db = .ok (q, db')) :
    q ≤ p ∧ ∀ i, i < q ∨ p < i → slot db' i = slot db i := by
  induction p generalizing db with
  | zero =>
    simp only [carryLoop] at h
    split at h
    · simp at h
    · simp only [Except.ok.injEq, Prod.mk.injEq] at h
      obtain ⟨rfl, rfl⟩ := h
      exact ⟨le_refl _, fun i hi => slot_setSlot_other _ (by omega) _⟩
  | succ p ih =>
    simp only [carryLoop] at h
    split at h
    · obtain ⟨h1, h2⟩ := ih h
      refine ⟨by omega, fun i hi => ?_⟩
      rw [h2 i (by omega), slot_setSlot_other _ (by omega)]
    · simp only [Except.ok.injEq, Prod.mk.injEq] at h
      obtain ⟨rfl, rfl⟩ := h
      exact ⟨le_refl _, fun i hi => slot_setSlot_other _ (by omega) _⟩

/-- Trimming passes zeros only, and stops at its limit or at a digit that is not zero. -/
theorem trimLoop_ok {db : DigitBuffer} {k first f : Nat} (h : trimLoop db k first = .ok f) :
    first ≤ f ∧ f ≤ first + k ∧ (∀ i, first ≤ i → i < f → slot db i = 0#4) ∧
      (f = first + k ∨ slot db f ≠ 0#4) := by
  induction k generalizing first with
  | zero => simp only [trimLoop, Except.ok.injEq] at h; subst h; simp; omega
  | succ k ih =>
    simp only [trimLoop] at h
    split at h
    · split at h
      · rename_i hz
        obtain ⟨h1, h2, h3, h4⟩ := ih h
        refine ⟨by omega, by omega, fun i hi hf => ?_, h4.imp (by omega) id⟩
        rcases Nat.eq_or_lt_of_le hi with rfl | hlt
        · exact hz
        · exact h3 i hlt hf
      · simp only [Except.ok.injEq] at h
        subst h
        exact ⟨le_refl _, by omega, fun i hi hf => by omega, .inr ‹_›⟩
    · simp at h

/-- Trimming does not leave a buffer that holds its limit. -/
theorem trimLoop_completes (db : DigitBuffer) {k first : Nat} (h : first + k ≤ 12) :
    ∃ f, trimLoop db k first = .ok f := by
  induction k generalizing first with
  | zero => exact ⟨first, rfl⟩
  | succ k ih =>
    rw [trimLoop, if_pos (by rw [dbCap_eq]; omega)]
    split
    · exact ih (by omega)
    · exact ⟨first, rfl⟩

/-- How many characters `k` slots make: one each, and the point if it lies among them. -/
theorem length_digitChars (db : DigitBuffer) (dpp k i : Nat) :
    (digitChars db dpp k i).length = k + if i ≤ dpp ∧ dpp < i + k then 1 else 0 := by
  induction k generalizing i with
  | zero => simp [digitChars]
  | succ k ih =>
    rw [digitChars, List.length_append, List.length_cons, ih]
    rcases Nat.lt_trichotomy i dpp with h | h | h
    · rw [if_neg (by omega)]
      by_cases hb : dpp < i + 1 + k
      · rw [if_pos ⟨by omega, hb⟩, if_pos ⟨by omega, by omega⟩]; simp [Nat.add_comm, Nat.add_left_comm]
      · rw [if_neg (by omega), if_neg (by omega)]; simp
    · subst h
      rw [if_pos rfl, if_neg (by omega), if_pos ⟨by omega, by omega⟩]; simp [Nat.add_comm]
    · rw [if_neg (by omega), if_neg (by omega), if_neg (by omega)]; simp

@[simp] theorem length_signChars (neg : Bool) : (signChars neg).length = neg.toNat := by
  cases neg <;> rfl

/-- `need` of R182 is enough for what `ASM` writes. -/
theorem length_resultChars_le (neg : Bool) (db : DigitBuffer) (first endAt dpp : Nat) :
    (resultChars neg db first endAt dpp).length + 1 ≤ bytesNeeded neg first endAt dpp := by
  rw [resultChars, List.length_append, length_signChars, length_digitChars, bytesNeeded]
  by_cases h : dpp < endAt
  · rw [if_pos h]; split <;> omega
  · rw [if_neg h, if_neg (by omega)]; rfl

/-- `need` of R182 is exactly what `ASM` writes where the point is not left of the window. -/
theorem length_resultChars (neg : Bool) (db : DigitBuffer) {first endAt dpp : Nat} (h : first ≤ dpp) :
    (resultChars neg db first endAt dpp).length + 1 = bytesNeeded neg first endAt dpp := by
  rw [resultChars, List.length_append, length_signChars, length_digitChars, bytesNeeded]
  by_cases hd : dpp < endAt
  · rw [if_pos hd, if_pos ⟨h, by omega⟩]; omega
  · rw [if_neg hd, if_neg (by omega)]; rfl

/-! The arms of `exec`. -/

theorem exec_format (value : Word) (neg : Bool) (fd : Half) (ms : Bool) (s : State) :
    exec (.format value neg fd ms) s = .next (if acceptsStart s then s.latch value neg fd ms else s) := rfl

theorem exec_idle (s : State) : exec .idle s = .next s := rfl

theorem exec_done (s : State) : exec .done s = .next s := rfl

theorem exec_faulted (s : State) : exec .faulted s = .next s := rfl

theorem exec_acq (s : State) : exec .acq s = .next (if s.phase = .acq then acquireOp s else s) := rfl

theorem exec_idx (s : State) : exec .idx s = .next (if s.phase = .int then integerDigits s else s) := rfl

theorem exec_fdg (s : State) : exec .fdg s = .next (if s.phase = .frac then fractionDigits s else s) := rfl

theorem exec_rnd (s : State) : exec .rnd s = .next (if s.phase = .round then roundDigits s else s) := rfl

theorem exec_asm (s : State) : exec .asm s = .next (if s.phase = .asm then assemble s else s) := rfl

end Sys2Proof.Machine
end

