-- ==== Sys2Proof/Laws/Arith.lean ====
section
/-! SUPPORT. What the three digit loops compute, as numbers read from the slots. -/

namespace Sys2Proof.Safety

open Sys2Proof.Machine

theorem slotsFrom_one (db : DigitBuffer) (lo : Nat) : slotsFrom db lo 1 = (slot db lo).toNat := by
  simp [slotsFrom]

/-- `IDX`'s loop writes the number it was given into the slots it moved over. -/
theorem idxLoop_value {first n : Nat} {db db' : DigitBuffer} {f : Nat} (h : idxLoop first n db = .ok (f, db')) :
    slotsFrom db' f (first - f) = n ∧ (∀ i, f ≤ i → i < first → (slot db' i).toNat ≤ 9) ∧
      (n ≠ 0 → (slot db' f).toNat ≠ 0) := by
  induction first generalizing n db with
  | zero => simp [idxLoop] at h
  | succ first ih =>
    have hfr := idxLoop_ok h
    simp only [idxLoop] at h
    split at h
    · rename_i hc
      rw [dbCap_eq] at hc
      split at h
      · rename_i hn
        simp only [Except.ok.injEq, Prod.mk.injEq] at h
        obtain ⟨rfl, rfl⟩ := h
        have hs : (slot (setSlot db first (BitVec.ofNat 4 (n % 10))) first).toNat = n := by
          rw [slot_setSlot_same _ hc, BitVec.toNat_ofNat]; omega
        refine ⟨by rw [Nat.add_sub_cancel_left, slotsFrom_one, hs], fun i h1 h2 => ?_, by omega⟩
        obtain rfl : i = first := by omega
        omega
      · obtain ⟨h1, h2, h3⟩ := ih h
        have hk := idxLoop_ok h
        have hs : (slot db' first).toNat = n % 10 := by
          rw [hk.2.2 first (.inr (le_refl _)), slot_setSlot_same _ hc, BitVec.toNat_ofNat]; omega
        refine ⟨?_, fun i hi1 hi2 => ?_, fun _ => h3 (by omega)⟩
        · rw [Nat.succ_sub (by omega), slotsFrom_succ, h1, show f + (first - f) = first by omega, hs]
          omega
        · rcases Nat.lt_or_ge i first with hlt | hge
          · exact h2 i hi1 hlt
          · obtain rfl : i = first := by omega
            omega
    · simp at h

/-- `IDX`'s loop completes where the number fits left of `FIRST`. -/
theorem idxLoop_completes {first n : Nat} (db : DigitBuffer) (h0 : n ≠ 0) (h : n < 10 ^ first) (hf : first ≤ 12) :
    ∃ f db', idxLoop first n db = .ok (f, db') := by
  induction first generalizing n db with
  | zero => simp at h; omega
  | succ first ih =>
    rw [idxLoop, if_pos (by rw [dbCap_eq]; omega)]
    dsimp only
    split
    · exact ⟨_, _, rfl⟩
    · exact ih _ (by omega) (by rw [Nat.pow_succ] at h; omega) (by omega)

/-- One multiply of R162 as numbers. -/
theorem toNat_workStep (w : Word) : (workStep w).toNat = w.toNat % 65536 * 10 := by
  have h1 : (w &&& 0x0000FFFF#32).toNat = w.toNat % 65536 := by
    rw [BitVec.toNat_and]
    exact Nat.and_two_pow_sub_one_eq_mod w.toNat 16
  rw [workStep, BitVec.toNat_mul, h1]
  have : w.toNat % 65536 < 65536 := Nat.mod_lt _ (by decide)
  simp only [BitVec.toNat_ofNat]
  omega

theorem toNat_workDigit_workStep (w : Word) : (workDigit (workStep w)).toNat = w.toNat % 65536 * 10 / 65536 := by
  have : w.toNat % 65536 < 65536 := Nat.mod_lt _ (by decide)
  rw [workDigit, BitVec.extractLsb'_toNat, toNat_workStep, Nat.shiftRight_eq_div_pow]
  omega

/-- `FDG`'s loop appends the decimal places of the working fraction and keeps the exact remainder. -/
theorem fdgLoop_value {k : Nat} {g g' : Generation} (h : fdgLoop k g = .ok g') :
    slotsFrom g'.db g.endAt k = g.work.toNat % 65536 * 10 ^ k / 65536 ∧
      g'.work.toNat % 65536 = g.work.toNat % 65536 * 10 ^ k % 65536 ∧
      ∀ i, g.endAt ≤ i → i < g'.endAt → (slot g'.db i).toNat ≤ 9 := by
  induction k generalizing g with
  | zero =>
    simp only [fdgLoop, Except.ok.injEq] at h
    subst h
    exact ⟨by simp, by simp, fun i h1 h2 => by omega⟩
  | succ k ih =>
    simp only [fdgLoop] at h
    split at h
    · simp at h
    · rename_i hg
      obtain ⟨h1, h2, h3⟩ := ih h
      have hfr := (fdgLoop_ok h).2.2
      dsimp only at h1 h2 h3 hfr
      have hd : (slot g'.db g.endAt).toNat = g.work.toNat % 65536 * 10 / 65536 := by
        rw [hfr g.endAt (.inl (by omega)), slot_setSlot_same _ (by omega), toNat_workDigit_workStep]
      rw [toNat_workStep] at h1 h2
      have hm : g.work.toNat % 65536 < 65536 := Nat.mod_lt _ (by decide)
      generalize g.work.toNat % 65536 = m at *
      have hp : m * 10 ^ (k + 1) = m * 10 / 65536 * 10 ^ k * 65536 + m * 10 % 65536 * 10 ^ k := by
        rw [Nat.pow_succ]
        conv_lhs => rw [show m * (10 ^ k * 10) = m * 10 * 10 ^ k by ring, ← Nat.div_add_mod (m * 10) 65536]
        ring
      refine ⟨?_, ?_, fun i hi1 hi2 => ?_⟩
      · rw [Nat.add_comm k 1, slotsFrom_add, slotsFrom_one, hd, h1, Nat.add_comm 1 k, hp, Nat.mul_comm _ 65536,
          Nat.mul_add_div (by decide)]
      · rw [h2, hp, Nat.mul_comm _ 65536, Nat.mul_add_mod]
      · rcases Nat.lt_or_ge g.endAt i with hlt | hge
        · exact h3 i hlt hi2
        · obtain rfl : i = g.endAt := by omega
          omega

/-- A digit that does not become 10 grows by one and stays a digit. -/
theorem toNat_slot_succ {v : Slot} (h : v.toNat ≤ 9) (hne : v + 1#4 ≠ 10#4) :
    (v + 1#4).toNat = v.toNat + 1 ∧ v.toNat + 1 ≤ 9 := by
  have hs : (v + 1#4).toNat = v.toNat + 1 := by
    rw [BitVec.toNat_add]; simp only [BitVec.toNat_ofNat]; omega
  refine ⟨hs, ?_⟩
  by_contra hc
  exact hne (BitVec.eq_of_toNat_eq (by rw [hs]; simp only [BitVec.toNat_ofNat]; omega))

/-- A digit that becomes 10 was 9. -/
theorem slot_eq_nine {v : Slot} (h : v.toNat ≤ 9) (h10 : v + 1#4 = 10#4) : v = 9#4 := by
  have := congrArg BitVec.toNat h10
  rw [BitVec.toNat_add] at this
  simp only [BitVec.toNat_ofNat] at this
  exact BitVec.eq_of_toNat_eq (by simp only [BitVec.toNat_ofNat]; omega)

/-- Where the chain absorbs the carry at once, the number grows by one. -/
theorem slotsFrom_increment {m : Nat} {db : DigitBuffer} (hm : m < 12) (hd : (slot db m).toNat ≤ 9)
    (hne : slot db m + 1#4 ≠ 10#4) :
    slotsFrom (setSlot db m (slot db m + 1#4)) 0 (m + 1) = slotsFrom db 0 (m + 1) + 1 := by
  rw [slotsFrom_succ, slotsFrom_succ, slotsFrom_congr (b := db) fun i _ hi => slot_setSlot_other _ (by omega) _,
    Nat.zero_add, slot_setSlot_same _ hm, (toNat_slot_succ hd hne).1]
  omega

/-- The carry chain is the decimal increment of the slots up to where it began: it ends on a digit it raised by one,
and every slot it passed was 9 and is 0. -/
theorem carryLoop_value {p q : Nat} {db db' : DigitBuffer} (hp : p < 12) (hd : ∀ i, i ≤ p → (slot db i).toNat ≤ 9)
    (h : carryLoop p db = .ok (q, db')) :
    slotsFrom db' 0 (p + 1) = slotsFrom db 0 (p + 1) + 1 ∧ (∀ i, i ≤ p → (slot db' i).toNat ≤ 9) ∧
      (slot db' q).toNat = (slot db q).toNat + 1 ∧
      ∀ i, q < i → i ≤ p → slot db i = 9#4 ∧ slot db' i = 0#4 := by
  have hfr := carryLoop_ok h
  induction p generalizing db with
  | zero =>
    simp only [carryLoop] at h
    split at h
    · simp at h
    · rename_i hne
      simp only [Except.ok.injEq, Prod.mk.injEq] at h
      obtain ⟨rfl, rfl⟩ := h
      have hk := toNat_slot_succ (hd 0 (le_refl _)) hne
      refine ⟨slotsFrom_increment hp (hd 0 (le_refl _)) hne, fun i hi => ?_, ?_, fun i h1 h2 => by omega⟩
      · obtain rfl : i = 0 := by omega
        rw [slot_setSlot_same _ hp, hk.1]; exact hk.2
      · rw [slot_setSlot_same _ hp, hk.1]
  | succ p ih =>
    simp only [carryLoop] at h
    split at h
    · rename_i h10
      have h9 : slot db (p + 1) = 9#4 := slot_eq_nine (hd (p + 1) (le_refl _)) h10
      have hfr' := carryLoop_ok h
      have hs : ∀ i, i ≤ p → slot (setSlot db (p + 1) 0#4) i = slot db i := fun i hi =>
        slot_setSlot_other _ (by omega) _
      obtain ⟨h1, h2, h3, h4⟩ := ih (by omega) (fun i hi => by rw [hs i hi]; exact hd i (by omega)) h hfr'
      have hz : slot db' (p + 1) = 0#4 := by
        rw [hfr'.2 (p + 1) (.inr (by omega)), slot_setSlot_same _ hp]
      refine ⟨?_, fun i hi => ?_, by rw [h3, hs q hfr'.1], fun i hq hi => ?_⟩
      · rw [slotsFrom_succ, h1, slotsFrom_succ db, slotsFrom_congr (b := db) fun i _ hi => hs i (by omega),
          Nat.zero_add, hz, h9]
        simp only [BitVec.toNat_ofNat]
        omega
      · rcases Nat.lt_or_ge p i with hlt | hge
        · obtain rfl : i = p + 1 := by omega
          simp [hz]
        · exact h2 i hge
      · rcases Nat.lt_or_ge p i with hlt | hge
        · obtain rfl : i = p + 1 := by omega
          exact ⟨h9, hz⟩
        · have := h4 i hq hge
          exact ⟨by rw [← hs i hge]; exact this.1, this.2⟩
    · rename_i hne
      simp only [Except.ok.injEq, Prod.mk.injEq] at h
      obtain ⟨rfl, rfl⟩ := h
      have hk := toNat_slot_succ (hd (p + 1) (le_refl _)) hne
      refine ⟨slotsFrom_increment hp (hd (p + 1) (le_refl _)) hne, fun i hi => ?_, ?_, fun i h1 h2 => by omega⟩
      · rw [slot_setSlot _ hp]
        split
        · rw [hk.1]; exact hk.2
        · exact hd i hi
      · rw [slot_setSlot_same _ hp, hk.1]

/-- The chain runs out of slot 0 only over nines. -/
theorem carryLoop_error {p : Nat} {db db' : DigitBuffer} (hd : ∀ i, i ≤ p → (slot db i).toNat ≤ 9)
    (h : carryLoop p db = .error db') : ∀ i, i ≤ p → slot db i = 9#4 := by
  induction p generalizing db with
  | zero =>
    simp only [carryLoop] at h
    split at h
    · rename_i h10
      intro i hi
      obtain rfl : i = 0 := by omega
      exact slot_eq_nine (hd 0 (le_refl _)) h10
    · simp at h
  | succ p ih =>
    simp only [carryLoop] at h
    split at h
    · rename_i h10
      have hs : ∀ i, i ≤ p → slot (setSlot db (p + 1) 0#4) i = slot db i := fun i hi =>
        slot_setSlot_other _ (by omega) _
      intro i hi
      rcases Nat.lt_or_ge p i with hlt | hge
      · obtain rfl : i = p + 1 := by omega
        exact slot_eq_nine (hd (p + 1) (le_refl _)) h10
      · rw [← hs i hge]
        exact ih (fun j hj => by rw [hs j hj]; exact hd j (by omega)) h i hge
    · simp at h

end Sys2Proof.Safety
end

