-- ==== Sys2Proof/Laws/PerInstr.lean ====
section
/-! SUPPORT. The families of statements about every operation as syntax, one lemma a constructor. -/

namespace Sys2Proof.Laws.Port

/-- R92, R97: an operation's encoding stands where it is selected: a request word on the host's port for the one
operation the host can select, a phase code for every other; and the operation is well-formed. -/
def Statement (i : Instr) : Prop :=
  WellFormed i = true ∧
    match encode i with
    | .req _ => hostSelectable i = true
    | .ph _ => hostSelectable i = false

theorem format (value : Word) (neg : Bool) (fd : Half) (ms : Bool) : Statement (.format value neg fd ms) :=
  ⟨rfl, rfl⟩

theorem idle : Statement .idle := ⟨rfl, rfl⟩

theorem acq : Statement .acq := ⟨rfl, rfl⟩

theorem idx : Statement .idx := ⟨rfl, rfl⟩

theorem fdg : Statement .fdg := ⟨rfl, rfl⟩

theorem rnd : Statement .rnd := ⟨rfl, rfl⟩

theorem asm : Statement .asm := ⟨rfl, rfl⟩

theorem done : Statement .done := ⟨rfl, rfl⟩

theorem faulted : Statement .faulted := ⟨rfl, rfl⟩

end Sys2Proof.Laws.Port
end

