-- ==== Sys2Proof/Laws/State.lean ====
section
/-! SUPPORT. Every field after every named update of the state, so that no proof unfolds a record update. -/

namespace Sys2Proof.Machine

@[simp] theorem State.letGo_value (s : State) : s.letGo.value = s.value := rfl
@[simp] theorem State.letGo_neg (s : State) : s.letGo.neg = s.neg := rfl
@[simp] theorem State.letGo_fd (s : State) : s.letGo.fd = s.fd := rfl
@[simp] theorem State.letGo_ms (s : State) : s.letGo.ms = s.ms := rfl
@[simp] theorem State.letGo_phase (s : State) : s.letGo.phase = s.phase := rfl
@[simp] theorem State.letGo_work (s : State) : s.letGo.work = s.work := rfl
@[simp] theorem State.letGo_ndig (s : State) : s.letGo.ndig = s.ndig := rfl
@[simp] theorem State.letGo_firstCur (s : State) : s.letGo.firstCur = s.firstCur := rfl
@[simp] theorem State.letGo_endCur (s : State) : s.letGo.endCur = s.endCur := rfl
@[simp] theorem State.letGo_dpp (s : State) : s.letGo.dpp = s.dpp := rfl
@[simp] theorem State.letGo_len (s : State) : s.letGo.len = s.len := rfl
@[simp] theorem State.letGo_fault (s : State) : s.letGo.fault = s.fault := rfl
@[simp] theorem State.letGo_faultPh (s : State) : s.letGo.faultPh = s.faultPh := rfl
@[simp] theorem State.letGo_db (s : State) : s.letGo.db = s.db := rfl
@[simp] theorem State.letGo_out (s : State) : s.letGo.out = [] := rfl
@[simp] theorem State.letGo_owner (s : State) : s.letGo.owner = .none := rfl
@[simp] theorem State.letGo_kept (s : State) : s.letGo.kept = hostStores s := rfl
@[simp] theorem State.letGo_inputs (s : State) : s.letGo.inputs = s.inputs := rfl
@[simp] theorem State.letGo_answers (s : State) : s.letGo.answers = s.answers := rfl
@[simp] theorem State.letGo_draws (s : State) : s.letGo.draws = s.draws := rfl

@[simp] theorem State.drawn_value (s : State) : s.drawn.value = s.value := rfl
@[simp] theorem State.drawn_neg (s : State) : s.drawn.neg = s.neg := rfl
@[simp] theorem State.drawn_fd (s : State) : s.drawn.fd = s.fd := rfl
@[simp] theorem State.drawn_ms (s : State) : s.drawn.ms = s.ms := rfl
@[simp] theorem State.drawn_phase (s : State) : s.drawn.phase = s.phase := rfl
@[simp] theorem State.drawn_work (s : State) : s.drawn.work = s.work := rfl
@[simp] theorem State.drawn_ndig (s : State) : s.drawn.ndig = s.ndig := rfl
@[simp] theorem State.drawn_firstCur (s : State) : s.drawn.firstCur = s.firstCur := rfl
@[simp] theorem State.drawn_endCur (s : State) : s.drawn.endCur = s.endCur := rfl
@[simp] theorem State.drawn_dpp (s : State) : s.drawn.dpp = s.dpp := rfl
@[simp] theorem State.drawn_len (s : State) : s.drawn.len = s.len := rfl
@[simp] theorem State.drawn_fault (s : State) : s.drawn.fault = s.fault := rfl
@[simp] theorem State.drawn_faultPh (s : State) : s.drawn.faultPh = s.faultPh := rfl
@[simp] theorem State.drawn_db (s : State) : s.drawn.db = s.db := rfl
@[simp] theorem State.drawn_out (s : State) : s.drawn.out = s.out := rfl
@[simp] theorem State.drawn_owner (s : State) : s.drawn.owner = s.owner := rfl
@[simp] theorem State.drawn_kept (s : State) : s.drawn.kept = s.kept := rfl
@[simp] theorem State.drawn_inputs (s : State) : s.drawn.inputs = s.inputs := rfl
@[simp] theorem State.drawn_answers (s : State) : s.drawn.answers = s.answers.tail := rfl
@[simp] theorem State.drawn_draws (s : State) : s.drawn.draws = s.draws + 1 := rfl

@[simp] theorem State.raise_value (s : State) (e : EngineException) : (s.raise e).value = s.value := rfl
@[simp] theorem State.raise_neg (s : State) (e : EngineException) : (s.raise e).neg = s.neg := rfl
@[simp] theorem State.raise_fd (s : State) (e : EngineException) : (s.raise e).fd = s.fd := rfl
@[simp] theorem State.raise_ms (s : State) (e : EngineException) : (s.raise e).ms = s.ms := rfl
@[simp] theorem State.raise_phase (s : State) (e : EngineException) : (s.raise e).phase = .faulted := rfl
@[simp] theorem State.raise_work (s : State) (e : EngineException) : (s.raise e).work = s.work := rfl
@[simp] theorem State.raise_ndig (s : State) (e : EngineException) : (s.raise e).ndig = s.ndig := rfl
@[simp] theorem State.raise_firstCur (s : State) (e : EngineException) : (s.raise e).firstCur = s.firstCur := rfl
@[simp] theorem State.raise_endCur (s : State) (e : EngineException) : (s.raise e).endCur = s.endCur := rfl
@[simp] theorem State.raise_dpp (s : State) (e : EngineException) : (s.raise e).dpp = s.dpp := rfl
@[simp] theorem State.raise_len (s : State) (e : EngineException) : (s.raise e).len = s.len := rfl
@[simp] theorem State.raise_fault (s : State) (e : EngineException) : (s.raise e).fault = exceptionCode e := rfl
@[simp] theorem State.raise_faultPh (s : State) (e : EngineException) : (s.raise e).faultPh = s.phase := rfl
@[simp] theorem State.raise_db (s : State) (e : EngineException) : (s.raise e).db = s.db := rfl
@[simp] theorem State.raise_out (s : State) (e : EngineException) : (s.raise e).out = [] := rfl
@[simp] theorem State.raise_owner (s : State) (e : EngineException) : (s.raise e).owner = .none := rfl
@[simp] theorem State.raise_kept (s : State) (e : EngineException) : (s.raise e).kept = hostStores s := rfl
@[simp] theorem State.raise_inputs (s : State) (e : EngineException) : (s.raise e).inputs = s.inputs := rfl
@[simp] theorem State.raise_answers (s : State) (e : EngineException) : (s.raise e).answers = s.answers := rfl
@[simp] theorem State.raise_draws (s : State) (e : EngineException) : (s.raise e).draws = s.draws := rfl

@[simp] theorem State.resetInput_value (s : State) : s.resetInput.value = State.reset.value := rfl
@[simp] theorem State.resetInput_neg (s : State) : s.resetInput.neg = State.reset.neg := rfl
@[simp] theorem State.resetInput_fd (s : State) : s.resetInput.fd = State.reset.fd := rfl
@[simp] theorem State.resetInput_ms (s : State) : s.resetInput.ms = State.reset.ms := rfl
@[simp] theorem State.resetInput_phase (s : State) : s.resetInput.phase = .idle := rfl
@[simp] theorem State.resetInput_work (s : State) : s.resetInput.work = State.reset.work := rfl
@[simp] theorem State.resetInput_ndig (s : State) : s.resetInput.ndig = State.reset.ndig := rfl
@[simp] theorem State.resetInput_firstCur (s : State) : s.resetInput.firstCur = State.reset.firstCur := rfl
@[simp] theorem State.resetInput_endCur (s : State) : s.resetInput.endCur = State.reset.endCur := rfl
@[simp] theorem State.resetInput_dpp (s : State) : s.resetInput.dpp = State.reset.dpp := rfl
@[simp] theorem State.resetInput_len (s : State) : s.resetInput.len = State.reset.len := rfl
@[simp] theorem State.resetInput_fault (s : State) : s.resetInput.fault = .none := rfl
@[simp] theorem State.resetInput_faultPh (s : State) : s.resetInput.faultPh = State.reset.faultPh := rfl
@[simp] theorem State.resetInput_db (s : State) : s.resetInput.db = State.reset.db := rfl
@[simp] theorem State.resetInput_out (s : State) : s.resetInput.out = [] := rfl
@[simp] theorem State.resetInput_owner (s : State) : s.resetInput.owner = .none := rfl
@[simp] theorem State.resetInput_kept (s : State) : s.resetInput.kept = hostStores s := rfl
@[simp] theorem State.resetInput_inputs (s : State) : s.resetInput.inputs = s.inputs := rfl
@[simp] theorem State.resetInput_answers (s : State) : s.resetInput.answers = s.answers := rfl
@[simp] theorem State.resetInput_draws (s : State) : s.resetInput.draws = s.draws := rfl

@[simp] theorem State.latch_value (s : State) (v : Word) (n : Bool) (f : Half) (m : Bool) : (s.latch v n f m).value = v := rfl
@[simp] theorem State.latch_neg (s : State) (v : Word) (n : Bool) (f : Half) (m : Bool) : (s.latch v n f m).neg = n := rfl
@[simp] theorem State.latch_fd (s : State) (v : Word) (n : Bool) (f : Half) (m : Bool) : (s.latch v n f m).fd = f := rfl
@[simp] theorem State.latch_ms (s : State) (v : Word) (n : Bool) (f : Half) (m : Bool) : (s.latch v n f m).ms = m := rfl
@[simp] theorem State.latch_phase (s : State) (v : Word) (n : Bool) (f : Half) (m : Bool) : (s.latch v n f m).phase = .acq := rfl
@[simp] theorem State.latch_work (s : State) (v : Word) (n : Bool) (f : Half) (m : Bool) : (s.latch v n f m).work = s.work := rfl
@[simp] theorem State.latch_ndig (s : State) (v : Word) (n : Bool) (f : Half) (m : Bool) : (s.latch v n f m).ndig = s.ndig := rfl
@[simp] theorem State.latch_firstCur (s : State) (v : Word) (n : Bool) (f : Half) (m : Bool) : (s.latch v n f m).firstCur = s.firstCur := rfl
@[simp] theorem State.latch_endCur (s : State) (v : Word) (n : Bool) (f : Half) (m : Bool) : (s.latch v n f m).endCur = s.endCur := rfl
@[simp] theorem State.latch_dpp (s : State) (v : Word) (n : Bool) (f : Half) (m : Bool) : (s.latch v n f m).dpp = s.dpp := rfl
@[simp] theorem State.latch_len (s : State) (v : Word) (n : Bool) (f : Half) (m : Bool) : (s.latch v n f m).len = s.len := rfl
@[simp] theorem State.latch_fault (s : State) (v : Word) (n : Bool) (f : Half) (m : Bool) : (s.latch v n f m).fault = s.fault := rfl
@[simp] theorem State.latch_faultPh (s : State) (v : Word) (n : Bool) (f : Half) (m : Bool) : (s.latch v n f m).faultPh = s.faultPh := rfl
@[simp] theorem State.latch_db (s : State) (v : Word) (n : Bool) (f : Half) (m : Bool) : (s.latch v n f m).db = s.db := rfl
@[simp] theorem State.latch_out (s : State) (v : Word) (n : Bool) (f : Half) (m : Bool) : (s.latch v n f m).out = s.out := rfl
@[simp] theorem State.latch_owner (s : State) (v : Word) (n : Bool) (f : Half) (m : Bool) : (s.latch v n f m).owner = s.owner := rfl
@[simp] theorem State.latch_kept (s : State) (v : Word) (n : Bool) (f : Half) (m : Bool) : (s.latch v n f m).kept = s.kept := rfl
@[simp] theorem State.latch_inputs (s : State) (v : Word) (n : Bool) (f : Half) (m : Bool) : (s.latch v n f m).inputs = s.inputs := rfl
@[simp] theorem State.latch_answers (s : State) (v : Word) (n : Bool) (f : Half) (m : Bool) : (s.latch v n f m).answers = s.answers := rfl
@[simp] theorem State.latch_draws (s : State) (v : Word) (n : Bool) (f : Half) (m : Bool) : (s.latch v n f m).draws = s.draws := rfl

@[simp] theorem State.acquire_value (s : State) : s.acquire.value = s.value := rfl
@[simp] theorem State.acquire_neg (s : State) : s.acquire.neg = s.neg := rfl
@[simp] theorem State.acquire_fd (s : State) : s.acquire.fd = s.fd := rfl
@[simp] theorem State.acquire_ms (s : State) : s.acquire.ms = s.ms := rfl
@[simp] theorem State.acquire_phase (s : State) : s.acquire.phase = .int := rfl
@[simp] theorem State.acquire_work (s : State) : s.acquire.work = s.work := rfl
@[simp] theorem State.acquire_ndig (s : State) : s.acquire.ndig = s.ndig := rfl
@[simp] theorem State.acquire_firstCur (s : State) : s.acquire.firstCur = 5#4 := rfl
@[simp] theorem State.acquire_endCur (s : State) : s.acquire.endCur = 5#4 := rfl
@[simp] theorem State.acquire_dpp (s : State) : s.acquire.dpp = s.dpp := rfl
@[simp] theorem State.acquire_len (s : State) : s.acquire.len = s.len := rfl
@[simp] theorem State.acquire_fault (s : State) : s.acquire.fault = s.fault := rfl
@[simp] theorem State.acquire_faultPh (s : State) : s.acquire.faultPh = s.faultPh := rfl
@[simp] theorem State.acquire_db (s : State) : s.acquire.db = zeroBuffer := rfl
@[simp] theorem State.acquire_out (s : State) : s.acquire.out = freshStorage s.draws := rfl
@[simp] theorem State.acquire_owner (s : State) : s.acquire.owner = .engine := rfl
@[simp] theorem State.acquire_kept (s : State) : s.acquire.kept = hostStores s := rfl
@[simp] theorem State.acquire_inputs (s : State) : s.acquire.inputs = s.inputs := rfl
@[simp] theorem State.acquire_answers (s : State) : s.acquire.answers = s.answers := rfl
@[simp] theorem State.acquire_draws (s : State) : s.acquire.draws = s.draws := rfl

@[simp] theorem State.generated_value (s : State) (g : Generation) : (s.generated g).value = s.value := rfl
@[simp] theorem State.generated_neg (s : State) (g : Generation) : (s.generated g).neg = s.neg := rfl
@[simp] theorem State.generated_fd (s : State) (g : Generation) : (s.generated g).fd = s.fd := rfl
@[simp] theorem State.generated_ms (s : State) (g : Generation) : (s.generated g).ms = s.ms := rfl
@[simp] theorem State.generated_phase (s : State) (g : Generation) : (s.generated g).phase = s.phase := rfl
@[simp] theorem State.generated_work (s : State) (g : Generation) : (s.generated g).work = g.work := rfl
@[simp] theorem State.generated_ndig (s : State) (g : Generation) : (s.generated g).ndig = BitVec.ofNat 3 (digitCount s.ms s.fd.toInt) := rfl
@[simp] theorem State.generated_firstCur (s : State) (g : Generation) : (s.generated g).firstCur = s.firstCur := rfl
@[simp] theorem State.generated_endCur (s : State) (g : Generation) : (s.generated g).endCur = BitVec.ofNat 4 g.endAt := rfl
@[simp] theorem State.generated_dpp (s : State) (g : Generation) : (s.generated g).dpp = BitVec.ofNat 4 (pointPosition s.ms) := rfl
@[simp] theorem State.generated_len (s : State) (g : Generation) : (s.generated g).len = s.len := rfl
@[simp] theorem State.generated_fault (s : State) (g : Generation) : (s.generated g).fault = s.fault := rfl
@[simp] theorem State.generated_faultPh (s : State) (g : Generation) : (s.generated g).faultPh = s.faultPh := rfl
@[simp] theorem State.generated_db (s : State) (g : Generation) : (s.generated g).db = g.db := rfl
@[simp] theorem State.generated_out (s : State) (g : Generation) : (s.generated g).out = s.out := rfl
@[simp] theorem State.generated_owner (s : State) (g : Generation) : (s.generated g).owner = s.owner := rfl
@[simp] theorem State.generated_kept (s : State) (g : Generation) : (s.generated g).kept = s.kept := rfl
@[simp] theorem State.generated_inputs (s : State) (g : Generation) : (s.generated g).inputs = s.inputs := rfl
@[simp] theorem State.generated_answers (s : State) (g : Generation) : (s.generated g).answers = s.answers := rfl
@[simp] theorem State.generated_draws (s : State) (g : Generation) : (s.generated g).draws = s.draws := rfl

@[simp] theorem State.assembled_value (s : State) (cs : List Byte) : (s.assembled cs).value = s.value := rfl
@[simp] theorem State.assembled_neg (s : State) (cs : List Byte) : (s.assembled cs).neg = s.neg := rfl
@[simp] theorem State.assembled_fd (s : State) (cs : List Byte) : (s.assembled cs).fd = s.fd := rfl
@[simp] theorem State.assembled_ms (s : State) (cs : List Byte) : (s.assembled cs).ms = s.ms := rfl
@[simp] theorem State.assembled_phase (s : State) (cs : List Byte) : (s.assembled cs).phase = .done := rfl
@[simp] theorem State.assembled_work (s : State) (cs : List Byte) : (s.assembled cs).work = s.work := rfl
@[simp] theorem State.assembled_ndig (s : State) (cs : List Byte) : (s.assembled cs).ndig = s.ndig := rfl
@[simp] theorem State.assembled_firstCur (s : State) (cs : List Byte) : (s.assembled cs).firstCur = s.firstCur := rfl
@[simp] theorem State.assembled_endCur (s : State) (cs : List Byte) : (s.assembled cs).endCur = s.endCur := rfl
@[simp] theorem State.assembled_dpp (s : State) (cs : List Byte) : (s.assembled cs).dpp = s.dpp := rfl
@[simp] theorem State.assembled_len (s : State) (cs : List Byte) : (s.assembled cs).len = BitVec.ofNat 4 cs.length := rfl
@[simp] theorem State.assembled_fault (s : State) (cs : List Byte) : (s.assembled cs).fault = s.fault := rfl
@[simp] theorem State.assembled_faultPh (s : State) (cs : List Byte) : (s.assembled cs).faultPh = s.faultPh := rfl
@[simp] theorem State.assembled_db (s : State) (cs : List Byte) : (s.assembled cs).db = s.db := rfl
@[simp] theorem State.assembled_out (s : State) (cs : List Byte) : (s.assembled cs).out = s.out.writeAll 0 (cs ++ [charNul]) := rfl
@[simp] theorem State.assembled_owner (s : State) (cs : List Byte) : (s.assembled cs).owner = .host := rfl
@[simp] theorem State.assembled_kept (s : State) (cs : List Byte) : (s.assembled cs).kept = s.kept := rfl
@[simp] theorem State.assembled_inputs (s : State) (cs : List Byte) : (s.assembled cs).inputs = s.inputs := rfl
@[simp] theorem State.assembled_answers (s : State) (cs : List Byte) : (s.assembled cs).answers = s.answers := rfl
@[simp] theorem State.assembled_draws (s : State) (cs : List Byte) : (s.assembled cs).draws = s.draws := rfl

end Sys2Proof.Machine
end

