-- ==== Sys2Proof/Laws/Step.lean ====
section
/-! SUPPORT. What a step can do, said once: by the host's move, by the phase, and by the outcome of each stage. -/

namespace Sys2Proof.Machine

open Sys2Proof.Safety

/-- The state with the host's move taken from its list. -/
def State.moved (s : State) : State :=
  { s with inputs := s.inputs.tail }

/-- What the engine does when the step is its own, by the phase (R92). -/
def phaseStep (s : State) : State :=
  match s.phase with
  | .idle => s
  | .acq => acquireOp s
  | .int => integerDigits s
  | .frac => fractionDigits s
  | .round => roundDigits s
  | .asm => assemble s
  | .done => s
  | .faulted => s

theorem exec_decode_phase (s : State) : exec (decode (.ph (phaseCode s.phase))) s = .next (phaseStep s) := by
  cases h : s.phase <;> simp [phaseCode, decode, decodePh, phaseStep, h, exec_idle, exec_acq, exec_idx, exec_fdg,
    exec_rnd, exec_asm, exec_done, exec_faulted]

theorem exec_decode_request (s : State) (r : ReqWord) :
    exec (decode (.req r)) s =
      .next (if acceptsStart s then s.latch (reqValue r) (reqNeg r) (r.extractLsb' 32 16) (reqMs r) else s) := rfl

/-- The next state of every step, by the host's move. -/
theorem step_eq (s : State) :
    step s = .next (match hostMove s with
      | .reset => s.moved.resetInput
      | .start r =>
        if acceptsStart s then s.moved.latch (reqValue r) (reqNeg r) (r.extractLsb' 32 16) (reqMs r) else s.moved
      | .quiet => phaseStep s.moved) := by
  unfold step fetch hostMove State.moved
  cases h : s.inputs with
  | nil =>
    simp only [moveOf, List.headD_nil, List.tail_nil]
    have : ({ s with inputs := [] } : State) = s := by cases s; simp_all
    rw [this]
    exact exec_decode_phase s
  | cons m rest =>
    cases m with
    | quiet => exact exec_decode_phase { s with inputs := rest }
    | start r => exact exec_decode_request { s with inputs := rest } r
    | reset => rfl

/-- `ACQ` ends in a grant or in `NoBuffer` (R122). -/
theorem acquireOp_cases (s : State) :
    (s.grant = true ∧ acquireOp s = s.acquire.drawn) ∨
      (s.grant = false ∧ acquireOp s = (s.raise .noBuffer).drawn) := by
  unfold acquireOp
  cases h : s.grant <;> simp

/-- `IDX` completes or raises `BufferOverrun` (R150). -/
theorem integerDigits_cases (s : State) :
    (∃ f db, idxRun (integerPart s.value).toNat s.firstCur.toNat s.db = .ok (f, db) ∧
      integerDigits s = { s with firstCur := BitVec.ofNat 4 f, db := db, phase := .frac }) ∨
    ∃ f db, idxRun (integerPart s.value).toNat s.firstCur.toNat s.db = .error (f, db) ∧
      integerDigits s = { s with firstCur := BitVec.ofNat 4 f, db := db }.raise .bufferOverrun := by
  unfold integerDigits
  rcases h : idxRun (integerPart s.value).toNat s.firstCur.toNat s.db with ⟨f, db⟩ | ⟨f, db⟩
  · exact .inr ⟨f, db, rfl, rfl⟩
  · exact .inl ⟨f, db, rfl, rfl⟩

/-- What `FDG`'s loop starts from (R162). -/
def generationStart (s : State) : Generation :=
  { work := (fractionPart s.value).setWidth 32, endAt := s.endCur.toNat, db := s.db }

/-- `FDG` completes or raises `BufferOverrun` (R162). -/
theorem fractionDigits_cases (s : State) :
    (∃ g, fdgLoop (digitCount s.ms s.fd.toInt) (generationStart s) = .ok g ∧
      fractionDigits s = { s.generated g with phase := .round }) ∨
    ∃ g, fdgLoop (digitCount s.ms s.fd.toInt) (generationStart s) = .error g ∧
      fractionDigits s = (s.generated g).raise .bufferOverrun := by
  unfold fractionDigits
  change (∃ g, _ ∧ (match fdgLoop (digitCount s.ms s.fd.toInt) (generationStart s) with
    | .ok g => ({ s.generated g with phase := .round } : State)
    | .error g => (s.generated g).raise .bufferOverrun) = _) ∨ ∃ g, _ ∧ (match fdgLoop (digitCount s.ms s.fd.toInt)
      (generationStart s) with
    | .ok g => ({ s.generated g with phase := .round } : State)
    | .error g => (s.generated g).raise .bufferOverrun) = _
  rcases h : fdgLoop (digitCount s.ms s.fd.toInt) (generationStart s) with g | g
  · exact .inr ⟨g, rfl, rfl⟩
  · exact .inl ⟨g, rfl, rfl⟩

/-- `RND` leaves the digits, carries, or raises `BufferOverrun` (R171). -/
theorem roundDigits_cases (s : State) :
    (roundUp s.work = false ∧ roundDigits s = { s with phase := .asm }) ∨
    (roundUp s.work = true ∧ ∃ p db, carryRun s.endCur.toNat s.db = .ok (p, db) ∧
      roundDigits s =
        { s with
          db := db
          firstCur := if p < s.firstCur.toNat then BitVec.ofNat 4 p else s.firstCur
          phase := .asm }) ∨
    (roundUp s.work = true ∧ ∃ db, carryRun s.endCur.toNat s.db = .error db ∧
      roundDigits s = { s with db := db }.raise .bufferOverrun) := by
  unfold roundDigits
  cases hr : roundUp s.work
  · exact .inl ⟨rfl, rfl⟩
  · rcases h : carryRun s.endCur.toNat s.db with db | ⟨p, db⟩
    · exact .inr (.inr ⟨rfl, db, rfl, rfl⟩)
    · exact .inr (.inl ⟨rfl, p, db, rfl, rfl⟩)

/-- `ASM` completes, or raises `BufferOverrun` before a byte is written (R182). -/
theorem assemble_cases (s : State) :
    (∃ f, trim s.db s.firstCur.toNat s.dpp.toNat = .ok f ∧ asmFits s f = true ∧
      assemble s = { s with firstCur := BitVec.ofNat 4 f }.assembled
        (resultChars s.neg s.db f s.endCur.toNat s.dpp.toNat)) ∨
    ∃ f, ((trim s.db s.firstCur.toNat s.dpp.toNat = .ok f ∧ asmFits s f = false) ∨
        trim s.db s.firstCur.toNat s.dpp.toNat = .error f) ∧
      assemble s = { s with firstCur := BitVec.ofNat 4 f }.raise .bufferOverrun := by
  unfold assemble
  rcases h : trim s.db s.firstCur.toNat s.dpp.toNat with f | f
  · exact .inr ⟨f, .inr rfl, rfl⟩
  · cases hf : asmFits s f
    · exact .inr ⟨f, .inl ⟨rfl, hf⟩, by simp [hf]⟩
    · exact .inl ⟨f, rfl, hf, by simp [hf]⟩

/-- The round-up condition as a number (R170). -/
theorem roundUp_iff (w : Word) : roundUp w = true ↔ 32768 ≤ w.toNat % 65536 := by
  unfold roundUp Config.roundBit
  rw [BitVec.getLsbD, Nat.testBit_eq_decide_div_mod_eq]
  simp only [decide_eq_true_eq]
  omega

end Sys2Proof.Machine
end

