-- ==== Sys2Proof/Tests/Slice0.lean ====
section
/-! SUPPORT. Tests with expected results from the spec (95_test_vectors, the examples of the rules), and for each statement with hypotheses a concrete case that meets them. -/

namespace Sys2Proof.Tests

open Sys2Proof Sys2Proof.Machine Sys2Proof.Safety

/-- The state an outcome answers; the reset state where it answers none. -/
def after (o : Host.Outcome State Fault Refusal) : State :=
  match o with
  | .next t => t
  | .fault _ => State.reset
  | .refused _ => State.reset

/-- A digit buffer from its slots. -/
def buffer (l : List Nat) : DigitBuffer :=
  Vector.ofFn fun i : Fin 12 => BitVec.ofNat 4 (l.getD i.val 0)

/-- A state of the reset machine with a phase and a buffer. -/
def inPhase (p : Phase) (l : List Nat) : State :=
  { State.reset with phase := p, db := buffer l }

/-- 14 bytes a provider could hand over. -/
def someStorage : Memory :=
  (List.range 14).map fun a => (a, 0xA5#8)

/-! Well-formedness. No constructor has an operand that could be ill-formed (R98, R99), so there is no check to refuse a
term; what can be ill-formed is a list of bytes, and the decoder refuses each kind by name. -/

theorem test_every_operation_is_well_formed (i : Instr) : WellFormed i = true := by
  cases i <;> rfl

theorem test_bytes_of_bad_length_refused :
    decodeBytes [] = .error .badLength ∧ decodeBytes [0#8, 0#8] = .error .badLength := ⟨rfl, rfl⟩

theorem test_phase_byte_with_a_fourth_bit_refused : decodeBytes [0x08#8] = .error .phasePadding := rfl

theorem test_request_bytes_with_a_bit_50_refused :
    decodeBytes [0#8, 0#8, 0#8, 0#8, 0#8, 0#8, 0x04#8] = .error .requestPadding := rfl

/-! Decoding: words written out from the encodings of R91, R92 and R96. -/

/-- R101: FORMAT 0x00010000, 0, 3, 0 is the word 0x0000300010000. -/
theorem test_decode_format_example :
    decode (.req 0b00000000000000001100000000000000010000000000000000#50) =
      .format 0x00010000#32 false 3#16 false := by decide

/-- 95 section 2.1: FD = 0xFFFF (-1), and both flags set in 0x30003FFFFFFFF. -/
theorem test_decode_format_flags :
    decode (.req 0x0FFFF00018000#50) = .format 0x00018000#32 false 0xFFFF#16 false ∧
      decode (.req 0x30003FFFFFFFF#50) = .format 0xFFFFFFFF#32 true 3#16 true := by decide

theorem test_decode_phase_codes :
    decode (.ph 0b000#3) = .idle ∧ decode (.ph 0b001#3) = .acq ∧ decode (.ph 0b010#3) = .idx ∧
      decode (.ph 0b011#3) = .fdg ∧ decode (.ph 0b100#3) = .rnd ∧ decode (.ph 0b101#3) = .asm ∧
      decode (.ph 0b110#3) = .done ∧ decode (.ph 0b111#3) = .faulted := by decide

/-- R92: the phase codes select the operations of the phases they name. -/
theorem test_phase_codes_round_trip (p : Phase) : phaseOfCode (phaseCode p) = p := by
  cases p <;> rfl

theorem test_table_words :
    decodeTableWord 56 0x30003FFFFFFFF = some (.format 0xFFFFFFFF#32 true 3#16 true) ∧
      decodeTableWord 8 4 = some .rnd ∧ decodeTableWord 8 9 = none := by decide

/-! The operations, each against a row of 95_test_vectors. -/

/-- 95 section 2.1. -/
theorem test_start_in_idle :
    let t := after (exec (decode (.req 0x30003FFFFFFFF#50)) State.reset)
    t.value = 0xFFFFFFFF#32 ∧ t.fd = 3#16 ∧ t.neg = true ∧ t.ms = true ∧ t.phase = .acq := by decide

/-- 95 section 2.1: START in ROUND is no change at all. -/
theorem test_start_in_round_dropped :
    after (exec (decode (.req 0x30003FFFFFFFF#50)) (inPhase .round [1, 2])) = inPhase .round [1, 2] := by decide

/-- 95 section 2.1: a granted ACQ over leftovers. -/
theorem test_acq_granted_clears :
    let t := after (exec .acq { inPhase .acq [6, 5, 5, 3, 5, 9, 9, 9, 9, 8, 5, 0] with answers := [true] })
    t.db = buffer [] ∧ t.firstCur = 5#4 ∧ t.endCur = 5#4 ∧ t.owner = .engine ∧ t.phase = .int := by decide

/-- 95 section 2.8: a denied ACQ. -/
theorem test_acq_denied_faults :
    let t := after (exec .acq { inPhase .acq [6, 5] with answers := [false] })
    t.phase = .faulted ∧ t.fault = .nobuf ∧ t.faultPh = .acq ∧ t.owner = .none ∧ t.db = buffer [6, 5] := by
  decide

/-- 95 section 2.2: the greatest integer part. -/
theorem test_idx_65535 :
    let t := after (exec .idx { inPhase .int [] with value := 0xFFFF0000#32, firstCur := 5#4 })
    t.db = buffer [6, 5, 5, 3, 5] ∧ t.firstCur = 0#4 ∧ t.phase = .frac := by decide

/-- 95 section 2.2: a trailing zero digit is written, and the fraction is irrelevant. -/
theorem test_idx_10 :
    let t := after (exec .idx { inPhase .int [] with value := 0x000AFFFF#32, firstCur := 5#4 })
    t.db = buffer [0, 0, 0, 1, 0] ∧ t.firstCur = 3#4 := by decide

/-- 95 section 2.4: 0x243F at six places, where a missing mask shows. -/
theorem test_fdg_mask :
    let t := after (exec .fdg { inPhase .frac [0, 0, 0, 0, 3] with value := 0x0003243F#32, fd := 6#16, endCur := 5#4 })
    t.db = buffer [0, 0, 0, 0, 3, 1, 4, 1, 5, 8, 6] ∧ t.work = 0x00064DC0#32 ∧ t.endCur = 11#4 ∧ t.dpp = 5#4 ∧
      t.ndig = 6#3 ∧ t.phase = .round := by decide

/-- 95 section 2.3: FD = 32767 in millisecond mode does not wrap. -/
theorem test_fdg_no_wrap :
    let t := after (exec .fdg { inPhase .frac [] with ms := true, fd := 32767#16, endCur := 5#4 })
    t.ndig = 6#3 ∧ t.dpp = 8#4 ∧ t.endCur = 11#4 := by decide

/-- 95 section 2.5: the longest chain, and the window grown into slot 0. -/
theorem test_rnd_longest_chain :
    let t := after (exec .rnd { inPhase .round [0, 9, 9, 9, 9, 9, 9, 9, 9] with
      work := 0x0009D8F0#32, firstCur := 1#4, endCur := 9#4 })
    t.db = buffer [1] ∧ t.firstCur = 0#4 ∧ t.phase = .asm := by decide

/-- 95 section 2.5: 0x7FFE does not round. -/
theorem test_rnd_below_half :
    let s : State := { inPhase .round [0, 0, 0, 0, 0, 9] with work := 0x00097FFE#32, firstCur := 4#4, endCur := 6#4 }
    after (exec .rnd s) = { s with phase := .asm } := by decide

/-- 95 section 2.6: "-65535999.985", 14 bytes, the maximum. -/
theorem test_asm_longest :
    let t := after (exec .asm { inPhase .asm [6, 5, 5, 3, 5, 9, 9, 9, 9, 8, 5] with
      neg := true, endCur := 11#4, dpp := 8#4, out := someStorage, owner := .engine })
    resultBytes t = [0x2D#8, 0x36#8, 0x35#8, 0x35#8, 0x33#8, 0x35#8, 0x39#8, 0x39#8, 0x39#8, 0x2E#8, 0x39#8, 0x38#8,
      0x35#8, 0x00#8].map some ∧ t.len = 13#4 ∧ t.owner = .host ∧ t.phase = .done := by decide

/-- 95 section 2.6: trimming stops at slot 7; the byte after the terminator keeps the provider's. -/
theorem test_asm_trims_milliseconds :
    let t := after (exec .asm { inPhase .asm [0, 0, 0, 0, 0, 0, 0, 1, 0, 0, 7] with
      firstCur := 4#4, endCur := 11#4, dpp := 8#4, out := someStorage, owner := .engine })
    resultBytes t = [0x31#8, 0x2E#8, 0x30#8, 0x30#8, 0x37#8, 0x00#8].map some ∧ t.firstCur = 7#4 ∧
      t.out.read 6 = some 0xA5#8 := by decide

/-- R123: in IDLE a quiet host leaves everything as it is. -/
theorem test_idle_holds : after (step State.reset) = State.reset := by decide

/-- 95 section 2.1, DONE: START leaves the host's bytes where they are. -/
theorem test_done_keeps_the_result_over_start :
    let s : State := { inPhase .done [] with out := someStorage, owner := .host }
    hostStores (after (exec (decode (.req 0x0000100008000#50)) s)) = [someStorage] := by decide

/-- 95 section 2.8: reset in FAULTED, and START there before it. -/
theorem test_faulted_start_then_reset :
    let s : State := { inPhase .faulted [] with fault := .nobuf, faultPh := .acq }
    after (step { s with inputs := [.start 0#50] }) = s ∧
      (after (step { s with inputs := [.reset] })).phase = .idle ∧
      (after (step { s with inputs := [.reset] })).fault = .none := by decide

/-- 95 section 2.7, one row by the closed form: "-65535.999985". -/
theorem test_closed_form_longest :
    closedBytes 0xFFFFFFFF#32 true 6 false =
      [0x2D#8, 0x36#8, 0x35#8, 0x35#8, 0x33#8, 0x35#8, 0x2E#8, 0x39#8, 0x39#8, 0x39#8, 0x39#8, 0x38#8, 0x35#8,
        0x00#8] := by decide

/-- 95 section 2.7: a carry through the millisecond digits, "1000". -/
theorem test_closed_form_milliseconds :
    closedBytes 0x0000FFFF#32 false 0 true = [0x31#8, 0x30#8, 0x30#8, 0x30#8, 0x00#8] := by decide

/-! Witnesses: each statement's hypotheses met together by a concrete case, a boundary for each clause. -/

theorem witness_decodeOfEncode : WellFormed (.format 0#32 true 0xFFFF#16 true) = true := rfl

theorem witness_acceptedBytes :
    decodeBytes [0x07#8] = .ok .faulted ∧
      decodeBytes [0xFF#8, 0xFF#8, 0xFF#8, 0xFF#8, 0xFF#8, 0xFF#8, 0x03#8] =
        .ok (.format 0xFFFFFFFF#32 true 0xFFFF#16 true) := ⟨rfl, rfl⟩

theorem witness_stepRunsDecodedOperation :
    (∃ s : State, s.inputs = []) ∧ (∃ s : State, s.inputs = [.quiet]) ∧
      (∃ s : State, s.inputs = [.start 0x3FFFFFFFFFFFF#50, .quiet]) ∧ ∃ s : State, s.inputs = [.reset] :=
  ⟨⟨State.reset, rfl⟩, ⟨{ State.reset with inputs := [.quiet] }, rfl⟩,
    ⟨{ State.reset with inputs := [.start 0x3FFFFFFFFFFFF#50, .quiet] }, rfl⟩,
    ⟨{ State.reset with inputs := [.reset] }, rfl⟩⟩

theorem witness_placedWord :
    (∃ i, decodeTableWord 56 0 = some i ∧ hostSelectable i = true) ∧
      ∃ i, decodeTableWord 8 7 = some i ∧ hostSelectable i = false :=
  ⟨⟨.format 0#32 false 0#16 false, by decide, rfl⟩, ⟨.faulted, by decide, rfl⟩⟩

theorem witness_phaseMoves : ∃ t, step State.reset = .next t := ⟨_, rfl⟩

theorem witness_idleHolds :
    ∃ t, step State.reset = .next t ∧ State.reset.phase = .idle ∧ hostMove State.reset = .quiet := ⟨_, rfl, rfl, rfl⟩

theorem witness_idleEntered :
    ∃ s t : State, step s = .next t ∧ t.phase = .idle ∧ s.phase ≠ .idle :=
  ⟨{ inPhase .done [] with inputs := [.reset] }, _, rfl, rfl, by decide⟩

/-- A request at the port, granted. -/
def requested (r : ReqWord) (answers : List Bool) : State :=
  { State.reset with inputs := [.start r], answers := answers }

/-- The state after `n` steps. -/
def steps : Nat → State → State
  | 0, s => s
  | n + 1, s => steps n (after (step s))

/-- A whole request (negative, in millisecond mode) changes every register of `RegistersChangeOnlyByTheirWriters` but
the fault registers, which the denied request changes. -/
theorem witness_registersChange :
    let s := requested 0x3000200C7FEB9#50 [true]
    (steps 1 s).value ≠ s.value ∧ (steps 1 s).neg ≠ s.neg ∧ (steps 1 s).fd ≠ s.fd ∧ (steps 1 s).ms ≠ s.ms ∧
      (steps 2 s).owner ≠ (steps 1 s).owner ∧ (steps 2 s).endCur ≠ (steps 1 s).endCur ∧
      (steps 3 s).firstCur ≠ (steps 2 s).firstCur ∧ (steps 3 s).db ≠ (steps 2 s).db ∧
      (steps 4 s).work ≠ (steps 3 s).work ∧ (steps 4 s).ndig ≠ (steps 3 s).ndig ∧
      (steps 4 s).dpp ≠ (steps 3 s).dpp ∧ (steps 6 s).len ≠ (steps 5 s).len := by decide

theorem witness_faultRegistersChange :
    let s := requested 0#50 [false]
    (steps 2 s).fault ≠ (steps 1 s).fault ∧ (steps 2 s).faultPh ≠ (steps 1 s).faultPh ∧
      hostMove (steps 1 s) ≠ .reset := by decide

theorem witness_startAccepted :
    State.reset.phase = .idle ∧ (inPhase .done []).phase = .done := ⟨rfl, rfl⟩

theorem witness_startDropped :
    (inPhase .acq []).phase ≠ .idle ∧ (inPhase .acq []).phase ≠ .done ∧
      (inPhase .faulted []).phase ≠ .idle ∧ (inPhase .faulted []).phase ≠ .done := by decide

theorem witness_holdPhases :
    (inPhase .done []).phase = .done ∧ hostMove (inPhase .done []) = .quiet ∧
      hostMove { inPhase .faulted [] with inputs := [.quiet] } = .quiet := ⟨rfl, rfl, rfl⟩

theorem witness_outsideTheirPhase :
    State.reset.phase ≠ .acq ∧ State.reset.phase ≠ .int ∧ State.reset.phase ≠ .frac ∧
      State.reset.phase ≠ .round ∧ State.reset.phase ≠ .asm := by decide

theorem witness_acqGranted :
    ∃ s : State, s.phase = .acq ∧ s.answers = true :: [false] :=
  ⟨{ inPhase .acq [9] with answers := [true, false] }, rfl, rfl⟩

theorem witness_acqDenied :
    ∃ s : State, s.phase = .acq ∧ s.answers = false :: [] ∧ s.owner = .host :=
  ⟨{ inPhase .acq [9] with answers := [false], owner := .host, out := someStorage }, rfl, rfl, rfl⟩

theorem witness_acqFreeAnswer : (inPhase .acq []).phase = .acq ∧ (inPhase .acq []).answers = [] := ⟨rfl, rfl⟩

/-- `IDX`: a zero part at the least `FIRST`, five digits at the least and at the greatest. -/
theorem witness_idxStores :
    (∃ s : State, s.phase = .int ∧ (integerPart s.value).toNat = 0 ∧
      digitsOfInteger (integerPart s.value).toNat ≤ s.firstCur.toNat ∧ s.firstCur.toNat = 1) ∧
    (∃ s : State, s.phase = .int ∧ (integerPart s.value).toNat ≠ 0 ∧
      digitsOfInteger (integerPart s.value).toNat = s.firstCur.toNat ∧ s.firstCur.toNat = 5) ∧
    ∃ s : State, s.phase = .int ∧ (integerPart s.value).toNat ≠ 0 ∧
      digitsOfInteger (integerPart s.value).toNat ≤ s.firstCur.toNat ∧ s.firstCur.toNat = 12 :=
  ⟨⟨{ inPhase .int [] with firstCur := 1#4 }, by decide⟩,
    ⟨{ inPhase .int [] with firstCur := 5#4, value := 0xFFFF0000#32 }, by decide⟩,
    ⟨{ inPhase .int [] with firstCur := 12#4, value := 0xFFFF0000#32 }, by decide⟩⟩

theorem witness_idxRightAligns :
    ∃ s : State, s.phase = .int ∧ AfterAcq s ∧ (integerPart s.value).toNat ≠ 0 :=
  ⟨{ inPhase .int [] with db := zeroBuffer, firstCur := 5#4, endCur := 5#4, value := 0x00010000#32 }, rfl,
    ⟨rfl, rfl, rfl⟩, by decide⟩

theorem witness_digitCount : (0 : Int) ≤ 0 ∧ (1 : Int) ≤ 1 ∧ (5 : Int) ≤ 5 ∧ (6 : Int) ≤ 6 ∧ (3 : Int) ≤ 3 := by
  decide

/-- `FDG`: six digits from the boundary, and none at the greatest `END`. -/
theorem witness_fdgAppends :
    (∃ s : State, s.phase = .frac ∧ s.endCur.toNat + digitCount s.ms s.fd.toInt = 11 ∧
      1 ≤ digitCount s.ms s.fd.toInt) ∧
    ∃ s : State, s.phase = .frac ∧ digitCount s.ms s.fd.toInt = 0 ∧ s.endCur.toNat = 15 :=
  ⟨⟨{ inPhase .frac [] with endCur := 5#4, fd := 6#16 }, by decide⟩,
    ⟨{ inPhase .frac [] with endCur := 15#4 }, by decide⟩⟩

theorem witness_rndAddsOne :
    (∃ s : State, s.phase = .round ∧ s.work.toNat % 65536 = 32767) ∧
    ∃ s : State, s.phase = .round ∧ s.work.toNat % 65536 = 32768 ∧ 1 ≤ s.endCur.toNat ∧ s.endCur.toNat = 12 ∧
      (∀ i, i < s.endCur.toNat → (slot s.db i).toNat ≤ 9) ∧
      slotsValue s.db s.endCur.toNat + 1 < 10 ^ s.endCur.toNat :=
  ⟨⟨{ inPhase .round [] with work := 32767#32 }, by decide⟩,
    ⟨{ inPhase .round [8, 9, 9, 9, 9, 9, 9, 9, 9, 9, 9, 9] with work := 32768#32, endCur := 12#4 }, by decide⟩⟩

theorem witness_rndGrows :
    (∃ s : State, s.phase = .round ∧ 32768 ≤ s.work.toNat % 65536 ∧ s.endCur.toNat ≤ 12 ∧
      s.firstCur.toNat < s.endCur.toNat ∧ (∀ i, i < s.endCur.toNat → (slot s.db i).toNat ≤ 9) ∧
      ZeroBelow s.db s.firstCur.toNat ∧
      (∀ i, s.firstCur.toNat ≤ i → i < s.endCur.toNat → slot s.db i = 9#4) ∧ 1 ≤ s.firstCur.toNat) ∧
    ∃ s : State, s.phase = .round ∧ 32768 ≤ s.work.toNat % 65536 ∧ s.endCur.toNat ≤ 12 ∧
      s.firstCur.toNat < s.endCur.toNat ∧ (∀ i, i < s.endCur.toNat → (slot s.db i).toNat ≤ 9) ∧
      ZeroBelow s.db s.firstCur.toNat ∧
      ∃ i, s.firstCur.toNat ≤ i ∧ i < s.endCur.toNat ∧ slot s.db i ≠ 9#4 := by
  refine ⟨⟨{ inPhase .round [0, 9] with work := 0xFFFF#32, firstCur := 1#4, endCur := 2#4 }, rfl, by decide, by decide,
    by decide, by decide, ?_, ?_, by decide⟩, ⟨{ inPhase .round [6, 9] with work := 0xFFFF#32, endCur := 2#4 }, rfl,
    by decide, by decide, by decide, by decide, ?_, 0, by decide⟩⟩
  · intro i hi
    obtain rfl : i = 0 := by simp at hi; omega
    rfl
  · intro i h1 h2
    obtain rfl : i = 1 := by simp at h1 h2; omega
    rfl
  · intro i hi
    exact absurd hi (Nat.not_lt_zero i)

/-- `ASM`: trimming that moves from slot 4 to slot 7, storage that fits exactly, and no storage at all. -/
theorem witness_asmWrites :
    (∃ (s : State) (f : Nat), s.phase = .asm ∧ s.dpp.toNat ≤ s.endCur.toNat ∧ s.endCur.toNat ≤ 12 ∧
      s.firstCur.toNat ≤ f ∧ f < s.dpp.toNat ∧ (∀ i, s.firstCur.toNat ≤ i → i < f → slot s.db i = 0#4) ∧
      (f + 1 = s.dpp.toNat ∨ slot s.db f ≠ 0#4) ∧
      ∀ off, off ≤ (windowText s.neg s.db f s.dpp.toNat s.endCur.toNat).length →
        (s.out.read off).isSome = true) ∧
    ∃ (s : State) (f : Nat), s.phase = .asm ∧ s.dpp.toNat ≤ s.endCur.toNat ∧ s.endCur.toNat ≤ 12 ∧
      s.firstCur.toNat ≤ f ∧ f < s.dpp.toNat ∧ (∀ i, s.firstCur.toNat ≤ i → i < f → slot s.db i = 0#4) ∧
      (f + 1 = s.dpp.toNat ∨ slot s.db f ≠ 0#4) ∧
      ∃ off, off ≤ (windowText s.neg s.db f s.dpp.toNat s.endCur.toNat).length ∧ s.out.read off = none := by
  refine ⟨⟨{ inPhase .asm [] with firstCur := 4#4, endCur := 8#4, dpp := 8#4, out := [(0, 1#8), (1, 2#8)] }, 7, rfl,
    by decide, by decide, by decide, by decide, ?_, by decide, ?_⟩,
    ⟨{ inPhase .asm [1] with endCur := 5#4, dpp := 5#4 }, 0, rfl, by decide, by decide, by decide, by decide, ?_,
      by decide, 0, by decide, rfl⟩⟩
  · intro i h1 h2
    have : i = 4 ∨ i = 5 ∨ i = 6 := by simp at h1; omega
    rcases this with rfl | rfl | rfl <;> rfl
  · intro off h
    have : off = 0 ∨ off = 1 := by
      have h' : off ≤ 1 := h
      omega
    rcases this with rfl | rfl <;> rfl
  · intro i _ h2
    omega

theorem witness_guards :
    (∃ s : State, s.phase = .int ∧ s.firstCur.toNat < digitsOfInteger (integerPart s.value).toNat) ∧
    (∃ s : State, s.phase = .frac ∧ 1 ≤ digitCount s.ms s.fd.toInt ∧
      s.endCur.toNat + digitCount s.ms s.fd.toInt = 12) ∧
    ∃ s : State, s.phase = .round ∧ 32768 ≤ s.work.toNat % 65536 ∧ 1 ≤ s.endCur.toNat ∧ s.endCur.toNat ≤ 12 ∧
      ∀ i, i < s.endCur.toNat → slot s.db i = 9#4 :=
  ⟨⟨inPhase .int [], by decide⟩, ⟨{ inPhase .frac [] with endCur := 11#4, fd := 1#16 }, by decide⟩,
    ⟨{ inPhase .round [9] with work := 0x8000#32, endCur := 1#4 }, by decide⟩⟩

/-- A fault standing, as a denied request leaves it. -/
def denied : State :=
  { inPhase .faulted [] with fault := .nobuf, faultPh := .acq }

theorem witness_faultStands :
    ∃ t, step denied = .next t ∧ hostMove denied ≠ .reset ∧ denied.fault ≠ .none ∧ ControlOk denied ∧
      denied.phase = .faulted :=
  ⟨_, rfl, by decide, by decide, ⟨rfl, by decide, rfl⟩, rfl⟩

theorem witness_resetInput : ∃ s : State, s.inputs = .reset :: [] ∧ s.phase = .round :=
  ⟨{ inPhase .round [] with inputs := [.reset] }, rfl, rfl⟩

theorem witness_hostReads :
    denied.fault ≠ .none ∧ denied.phase ≠ .done ∧ (inPhase .done []).phase = .done ∧
      (0 : Nat) ≤ (inPhase .done []).len.toNat ∧ (inPhase .done []).len.toNat < 1 := by decide

/-- `FDG` done for `FORMAT 0x0003243F, 0, 4, 0` (95 section 2.5, third row), with the provider's storage held. -/
def midway : State :=
  { State.reset with
    value := 0x0003243F#32
    fd := 4#16
    phase := .round
    work := 0x0005DCF0#32
    ndig := 4#3
    firstCur := 4#4
    endCur := 9#4
    dpp := 5#4
    db := buffer [0, 0, 0, 0, 3, 1, 4, 1, 5]
    out := freshStorage 0
    owner := .engine
    kept := [freshStorage 1]
    draws := 2 }

theorem full_freshStorage (d : Nat) : FullStorage (freshStorage d) := by
  intro off
  rw [read_freshStorage]
  split <;> simp_all

theorem witness_memoryOk : MemoryOk midway :=
  ⟨wf_freshStorage 0, fun m hm => by
    obtain rfl : m = freshStorage 1 := by simpa [midway] using hm
    exact wf_freshStorage 1⟩

theorem witness_storageOk : StorageOk midway :=
  ⟨fun h => by simp [midway] at h, fun _ => full_freshStorage 0, fun m hm => by
    obtain rfl : m = freshStorage 1 := by simpa [midway] using hm
    exact full_freshStorage 1⟩

theorem witness_controlOk : ControlOk midway := ⟨rfl, by decide, rfl⟩

theorem witness_dataOk : AfterFdg midway := by
  refine ⟨⟨by decide, ?_, .inl rfl⟩, digitsOk_of_lt (by decide), ⟨by decide, by decide, by decide⟩,
    zeroFrom_of_lt (by decide), by decide, by decide, by decide⟩
  intro i hi
  have : i = 0 ∨ i = 1 ∨ i = 2 ∨ i = 3 := by
    have hi' : i < 4 := hi
    omega
  rcases this with rfl | rfl | rfl | rfl <;> rfl

/-- The premises of the statements about every step from the invariant. -/
theorem witness_inv :
    Inv midway ∧ (∃ t, step midway = .next t) ∧ midway.fault ≠ .overrun ∧ midway.phase = .round :=
  ⟨⟨witness_memoryOk, witness_storageOk, witness_controlOk, witness_dataOk⟩, ⟨_, rfl⟩, by decide, rfl⟩

theorem granted_requested (r : ReqWord) (rest : List Bool) : GrantedRequest (requested r (true :: rest)) r :=
  ⟨⟨.inl rfl, rfl, fun h hm => by simp [requested] at hm⟩, rfl, rfl⟩

/-- A request accepted in `DONE`, with the host quiet for five steps and then giving another. -/
theorem witness_grantedRequest :
    ∃ s : State, s.phase = .done ∧ GrantedRequest s 0x3FFFFFFFFFFFF#50 :=
  ⟨{ inPhase .done [9] with
      owner := .host, out := freshStorage 0, answers := [true]
      inputs := [.start 0x3FFFFFFFFFFFF#50, .quiet, .quiet, .quiet, .quiet, .quiet, .start 0#50] },
    rfl, ⟨.inr rfl, rfl, fun h hm => by simpa using hm⟩, rfl, rfl⟩

theorem witness_deniedRequest :
    Requests (requested 0#50 [false]) 0#50 1 ∧ (requested 0#50 [false]).answers.head? = some false :=
  ⟨⟨.inl rfl, rfl, fun h hm => by simp [requested] at hm⟩, rfl⟩

theorem witness_requestsDoNotInteract :
    ∃ s s' : State, s.db ≠ s'.db ∧ GrantedRequest s 5#50 ∧ GrantedRequest s' 5#50 :=
  ⟨requested 5#50 [true], { requested 5#50 [true] with db := buffer [9] }, by decide,
    granted_requested 5#50 [], ⟨⟨.inl rfl, rfl, fun h hm => by simp [requested] at hm⟩, rfl, rfl⟩⟩

/-- "0.000" and "-0.000". -/
theorem witness_signPair :
    ∃ (s s' : State) (r r' : ReqWord), GrantedRequest s r ∧ GrantedRequest s' r' ∧ reqValue r' = reqValue r ∧
      reqDigits r' = reqDigits r ∧ reqMs r' = reqMs r ∧ reqNeg r = false ∧ reqNeg r' = true :=
  ⟨_, _, 0x0000300000000#50, 0x1000300000000#50, granted_requested _ [], granted_requested _ [], by decide, by decide,
    by decide, by decide, by decide⟩

/-- 9 places and 32767 places of 0xFFFF. -/
theorem witness_equivalentPair :
    ∃ (s s' : State) (r r' : ReqWord), GrantedRequest s r ∧ GrantedRequest s' r' ∧ r ≠ r' ∧
      reqValue r' = reqValue r ∧ reqNeg r' = reqNeg r ∧ reqMs r' = reqMs r ∧
      digitCount (reqMs r') (reqDigits r') = digitCount (reqMs r) (reqDigits r) :=
  ⟨_, _, 0x000090000FFFF#50, 0x07FFF0000FFFF#50, granted_requested _ [], granted_requested _ [], by decide, by decide,
    by decide, by decide, by decide⟩

/-- Just below and at one half, at zero places. -/
theorem witness_zeroPlaces :
    (∃ (s : State) (r : ReqWord), GrantedRequest s r ∧ reqDigits r ≤ 0 ∧ reqMs r = false ∧
      (fractionPart (reqValue r)).toNat = 0x7FFF) ∧
    ∃ (s : State) (r : ReqWord), GrantedRequest s r ∧ reqDigits r ≤ 0 ∧ reqMs r = false ∧
      (fractionPart (reqValue r)).toNat = 0x8000 :=
  ⟨⟨_, 0x00000FFFF7FFF#50, granted_requested _ [], by decide, by decide, by decide⟩,
    ⟨_, 0x08000FFFF8000#50, granted_requested _ [], by decide, by decide, by decide⟩⟩

theorem witness_zero :
    ∃ (s : State) (r : ReqWord), GrantedRequest s r ∧ reqValue r = 0#32 ∧ shownAfter (reqDigits r) (reqMs r) = 3 :=
  ⟨_, 0x2000300000000#50, granted_requested _ [], by decide, by decide⟩

end Sys2Proof.Tests
end

/-! PROOFS. What one step can do, as two inductive relations with one constructor an outcome: a proof about every step
is a case analysis of them and unfolds neither `step` nor a stage. -/

namespace Sys2Proof.Machine

open Sys2Proof.Safety

/-- What the engine's own step can do in a state, by the phase and the outcome of the stage, with the run of the
stage's loop that leads there (R122 to R125, R150, R162, R171, R182). -/
inductive EngineMove (s : State) : State → Prop
  /-- No engine step in this phase. -/
  | hold (hp : s.phase = .idle ∨ s.phase = .done ∨ s.phase = .faulted) : EngineMove s s
  /-- `ACQ`, granted. -/
  | granted (hp : s.phase = .acq) (hg : s.grant = true) : EngineMove s s.acquire.drawn
  /-- `ACQ`, denied. -/
  | denied (hp : s.phase = .acq) (hg : s.grant = false) : EngineMove s (s.raise .noBuffer).drawn
  /-- `IDX`, completed. -/
  | indexed (hp : s.phase = .int) (f : Nat) (db : DigitBuffer)
      (hrun : idxRun (integerPart s.value).toNat s.firstCur.toNat s.db = .ok (f, db)) :
      EngineMove s { s with firstCur := BitVec.ofNat 4 f, db := db, phase := .frac }
  /-- `IDX`, a guard failed. -/
  | indexOverran (hp : s.phase = .int) (f : Nat) (db : DigitBuffer)
      (hrun : idxRun (integerPart s.value).toNat s.firstCur.toNat s.db = .error (f, db)) :
      EngineMove s ({ s with firstCur := BitVec.ofNat 4 f, db := db }.raise .bufferOverrun)
  /-- `FDG`, completed. -/
  | generated (hp : s.phase = .frac) (g : Generation)
      (hrun : fdgLoop (digitCount s.ms s.fd.toInt) (generationStart s) = .ok g) :
      EngineMove s { s.generated g with phase := .round }
  /-- `FDG`, the guard failed. -/
  | generationOverran (hp : s.phase = .frac) (g : Generation)
      (hrun : fdgLoop (digitCount s.ms s.fd.toInt) (generationStart s) = .error g) :
      EngineMove s ((s.generated g).raise .bufferOverrun)
  /-- `RND`, below one half. -/
  | truncated (hp : s.phase = .round) (hr : roundUp s.work = false) : EngineMove s { s with phase := .asm }
  /-- `RND`, the carry absorbed at slot `p`. -/
  | carried (hp : s.phase = .round) (hr : roundUp s.work = true) (p : Nat) (db : DigitBuffer)
      (hrun : carryRun s.endCur.toNat s.db = .ok (p, db)) :
      EngineMove s
        { s with
          db := db
          firstCur := if p < s.firstCur.toNat then BitVec.ofNat 4 p else s.firstCur
          phase := .asm }
  /-- `RND`, the carry ran out of slot 0. -/
  | carryOverran (hp : s.phase = .round) (hr : roundUp s.work = true) (db : DigitBuffer)
      (hrun : carryRun s.endCur.toNat s.db = .error db) :
      EngineMove s ({ s with db := db }.raise .bufferOverrun)
  /-- `ASM`, completed. -/
  | assembled (hp : s.phase = .asm) (f : Nat) (htrim : trim s.db s.firstCur.toNat s.dpp.toNat = .ok f)
      (hfits : asmFits s f = true) :
      EngineMove s ({ s with firstCur := BitVec.ofNat 4 f }.assembled
        (resultChars s.neg s.db f s.endCur.toNat s.dpp.toNat))
  /-- `ASM`, no room or no slot. -/
  | assemblyOverran (hp : s.phase = .asm) (f : Nat)
      (hguard : (trim s.db s.firstCur.toNat s.dpp.toNat = .ok f ∧ asmFits s f = false) ∨
        trim s.db s.firstCur.toNat s.dpp.toNat = .error f) :
      EngineMove s ({ s with firstCur := BitVec.ofNat 4 f }.raise .bufferOverrun)

/-- The engine's step is one of its moves. -/
theorem engineMove_phaseStep (s : State) : EngineMove s (phaseStep s) := by
  cases hp : s.phase with
  | idle => simpa only [phaseStep, hp] using EngineMove.hold (.inl hp)
  | acq =>
    simp only [phaseStep, hp]
    rcases acquireOp_cases s with ⟨hg, h⟩ | ⟨hg, h⟩ <;> rw [h]
    · exact .granted hp hg
    · exact .denied hp hg
  | int =>
    simp only [phaseStep, hp]
    rcases integerDigits_cases s with ⟨f, db, hrun, h⟩ | ⟨f, db, hrun, h⟩ <;> rw [h]
    · exact .indexed hp f db hrun
    · exact .indexOverran hp f db hrun
  | frac =>
    simp only [phaseStep, hp]
    rcases fractionDigits_cases s with ⟨g, hrun, h⟩ | ⟨g, hrun, h⟩ <;> rw [h]
    · exact .generated hp g hrun
    · exact .generationOverran hp g hrun
  | round =>
    simp only [phaseStep, hp]
    rcases roundDigits_cases s with ⟨hr, h⟩ | ⟨hr, p, db, hrun, h⟩ | ⟨hr, db, hrun, h⟩ <;> rw [h]
    · exact .truncated hp hr
    · exact .carried hp hr p db hrun
    · exact .carryOverran hp hr db hrun
  | asm =>
    simp only [phaseStep, hp]
    rcases assemble_cases s with ⟨f, htrim, hfits, h⟩ | ⟨f, hguard, h⟩ <;> rw [h]
    · exact .assembled hp f htrim hfits
    · exact .assemblyOverran hp f hguard
  | done => simpa only [phaseStep, hp] using EngineMove.hold (.inr (.inl hp))
  | faulted => simpa only [phaseStep, hp] using EngineMove.hold (.inr (.inr hp))

/-- What a step can do, by the host's move (R120, R121, R130, R240). -/
inductive StepMove (s : State) : State → Prop
  /-- The reset input. -/
  | reset (hm : hostMove s = .reset) : StepMove s s.moved.resetInput
  /-- START, accepted. -/
  | started (r : ReqWord) (hm : hostMove s = .start r) (hp : s.phase = .idle ∨ s.phase = .done) :
      StepMove s (s.moved.latch (reqValue r) (reqNeg r) (r.extractLsb' 32 16) (reqMs r))
  /-- START, dropped. -/
  | dropped (r : ReqWord) (hm : hostMove s = .start r) : StepMove s s.moved
  /-- The engine's own step. -/
  | engine (t : State) (hm : hostMove s = .quiet) (ht : EngineMove s.moved t) : StepMove s t

theorem acceptsStart_iff (s : State) : acceptsStart s = true ↔ s.phase = .idle ∨ s.phase = .done := by
  unfold acceptsStart
  cases s.phase <;> simp

/-- Every step is one of these moves. -/
theorem stepMove_of_step {s t : State} (h : step s = .next t) : StepMove s t := by
  rw [step_eq] at h
  obtain rfl := Host.Outcome.next.inj h
  cases hm : hostMove s with
  | reset => exact .reset hm
  | quiet => exact .engine _ hm (engineMove_phaseStep _)
  | start r =>
    dsimp only
    split
    · exact .started r hm ((acceptsStart_iff s).mp ‹_›)
    · exact .dropped r hm

/-- A predicate that does not look at the host's list of moves is kept by every step when reset, an accepted START and
every engine move keep it. -/
theorem step_preserves {P : State → Prop} (moved : ∀ s, P s → P s.moved) (reset : ∀ s, P s → P s.resetInput)
    (latch : ∀ s v n f m, (s.phase = .idle ∨ s.phase = .done) → P s → P (s.latch v n f m))
    (engine : ∀ s t, P s → EngineMove s t → P t) {s t : State} (hs : P s) (h : step s = .next t) : P t := by
  have hm := moved s hs
  cases stepMove_of_step h with
  | reset => exact reset _ hm
  | started r _ hp => exact latch s.moved _ _ _ _ hp hm
  | dropped => exact hm
  | engine _ _ ht => exact engine _ _ hm ht

end Sys2Proof.Machine

/-! PROOFS. Who holds which storage: canonical form, whole storages, the owner and the fault registers. -/

namespace Sys2Proof.Safety

open Sys2Proof.Machine

theorem hostStores_of_host {s : State} (h : s.owner = .host) : hostStores s = s.out :: s.kept := by
  simp [hostStores, h]

theorem hostStores_of_ne_host {s : State} (h : s.owner ≠ .host) : hostStores s = s.kept := by
  cases ho : s.owner <;> simp_all [hostStores]

/-- What is true of the storage held and of every storage kept is true of every storage of the host. -/
theorem forall_mem_hostStores {p : Memory → Prop} {s : State} (hout : s.owner = .host → p s.out)
    (hkept : ∀ m ∈ s.kept, p m) : ∀ m ∈ hostStores s, p m := by
  by_cases ho : s.owner = .host
  · rw [hostStores_of_host ho]
    exact List.forall_mem_cons.mpr ⟨hout ho, hkept⟩
  · rwa [hostStores_of_ne_host ho]

/-! Canonical form (R38). -/

theorem MemoryOk.hostStores_wf {s : State} (h : MemoryOk s) : ∀ m ∈ hostStores s, Memory.wf m = true :=
  forall_mem_hostStores (fun _ => h.1) h.2

theorem MemoryOk.resetInput {s : State} (h : MemoryOk s) : MemoryOk s.resetInput :=
  ⟨rfl, h.hostStores_wf⟩

theorem MemoryOk.raise {s : State} (h : MemoryOk s) (e : EngineException) : MemoryOk (s.raise e) :=
  ⟨rfl, h.hostStores_wf⟩

theorem MemoryOk.engineMove {s t : State} (hs : MemoryOk s) (h : EngineMove s t) : MemoryOk t := by
  cases h with
  | hold | indexed | generated | truncated | carried => exact hs
  | granted => exact ⟨wf_freshStorage _, hs.hostStores_wf⟩
  | denied => exact hs.raise .noBuffer
  | indexOverran | generationOverran | carryOverran | assemblyOverran => exact MemoryOk.raise hs .bufferOverrun
  | assembled => exact ⟨Memory.wf_writeAll _ _ _ hs.1, hs.2⟩

/-! Whole storages while owned (R38, R40). -/

theorem StorageOk.hostStores_full {s : State} (h : StorageOk s) : ∀ m ∈ hostStores s, FullStorage m :=
  forall_mem_hostStores (fun ho => h.2.1 (by simp [ho])) h.2.2

theorem storageOk_of_not_owned {s : State} (ho : s.owner = .none) (hout : s.out = [])
    (hk : ∀ m ∈ s.kept, FullStorage m) : StorageOk s :=
  ⟨fun _ => hout, fun hn => absurd ho hn, hk⟩

theorem storageOk_of_owned {s : State} (ho : s.owner ≠ .none) (hout : FullStorage s.out)
    (hk : ∀ m ∈ s.kept, FullStorage m) : StorageOk s :=
  ⟨fun hn => absurd hn ho, fun _ => hout, hk⟩

theorem StorageOk.resetInput {s : State} (h : StorageOk s) : StorageOk s.resetInput :=
  storageOk_of_not_owned rfl rfl h.hostStores_full

theorem StorageOk.raise {s : State} (h : StorageOk s) (e : EngineException) : StorageOk (s.raise e) :=
  storageOk_of_not_owned rfl rfl h.hostStores_full

theorem fullStorage_freshStorage (d : Nat) : FullStorage (freshStorage d) := by
  intro off
  rw [read_freshStorage]
  split <;> simp [*]

theorem FullStorage.writeAll {m : Memory} (h : FullStorage m) {bs : List Byte} (hc : m.covers bs.length = true) :
    FullStorage (m.writeAll 0 bs) := by
  intro off
  rw [Memory.isSome_read_writeAll bs m hc, h off]

theorem covers_of_le {m : Memory} {k n : Nat} (h : m.covers n = true) (hk : k ≤ n) : m.covers k = true :=
  (m.covers_iff k).mpr fun off ho => (m.covers_iff n).mp h off (by omega)

/-- The guard of `ASM` makes room for every byte it writes. -/
theorem covers_of_asmFits {s : State} {f : Nat} (h : asmFits s f = true) :
    s.out.covers (resultChars s.neg s.db f s.endCur.toNat s.dpp.toNat ++ [charNul]).length = true := by
  rw [asmFits, Bool.and_eq_true] at h
  refine covers_of_le h.1 ?_
  rw [List.length_append]
  exact length_resultChars_le ..

/-! The owner and the fault registers in step with the phase (R210, R217). -/

theorem ControlOk.owner_eq_engine {s : State} (h : ControlOk s)
    (hp : s.phase = .int ∨ s.phase = .frac ∨ s.phase = .round ∨ s.phase = .asm) : s.owner = .engine := by
  have ho := h.1
  rcases hp with hp | hp | hp | hp <;> simpa [hp, ownerAllowed] using ho

theorem ControlOk.fault_eq_none {s : State} (h : ControlOk s) (hp : s.phase ≠ .faulted) : s.fault = .none := by
  by_contra hf
  exact hp (h.2.1.mp hf)

theorem controlOk_raise {s : State} {e : EngineException} (h : faultPhaseAllowed (exceptionCode e) s.phase = true) :
    ControlOk (s.raise e) :=
  ⟨rfl, by cases e <;> simp [exceptionCode], h⟩

theorem controlOk_of_no_fault {s : State} (ho : ownerAllowed s.phase s.owner = true) (hf : s.fault = .none)
    (hp : s.phase ≠ .faulted) : ControlOk s :=
  ⟨ho, by simp [hf, hp], by rw [hf]; rfl⟩

theorem controlOk_resetInput (s : State) : ControlOk s.resetInput :=
  controlOk_of_no_fault rfl rfl (by simp)

theorem ControlOk.latch {s : State} (h : ControlOk s) (hp : s.phase = .idle ∨ s.phase = .done) (v : Word) (n : Bool)
    (f : Half) (m : Bool) : ControlOk (s.latch v n f m) := by
  have hf := h.fault_eq_none (by rcases hp with hp | hp <;> simp [hp])
  have ho := h.1
  refine controlOk_of_no_fault ?_ hf (by simp)
  rcases hp with hp | hp <;> simp_all [ownerAllowed]

/-- A completed stage hands the owner on to the next phase. -/
theorem ControlOk.engineMove {s t : State} (hs : ControlOk s) (h : EngineMove s t) : ControlOk t := by
  cases h with
  | hold => exact hs
  | granted hp => exact controlOk_of_no_fault rfl (hs.fault_eq_none (by simp [hp])) (by simp)
  | denied hp => exact controlOk_raise (s := s) (e := .noBuffer) (by rw [hp]; rfl)
  | indexed hp | generated hp | truncated hp | carried hp =>
    have ho := hs.owner_eq_engine (by simp [hp])
    exact controlOk_of_no_fault (by simp [ownerAllowed, ho]) (hs.fault_eq_none (by simp [hp])) (by simp)
  | assembled hp => exact controlOk_of_no_fault rfl (hs.fault_eq_none (by simp [hp])) (by simp)
  | indexOverran hp | generationOverran hp | carryOverran hp | assemblyOverran hp =>
    exact controlOk_raise (by simp [hp, exceptionCode, faultPhaseAllowed])

theorem StorageOk.engineMove {s t : State} (hs : StorageOk s) (hc : ControlOk s) (h : EngineMove s t) :
    StorageOk t := by
  cases h with
  | hold | indexed | generated | truncated | carried => exact hs
  | granted => exact storageOk_of_owned (by simp) (fullStorage_freshStorage _) hs.hostStores_full
  | denied => exact hs.raise .noBuffer
  | indexOverran | generationOverran | carryOverran | assemblyOverran => exact StorageOk.raise hs .bufferOverrun
  | assembled hp f _ hfits =>
    have hfull : FullStorage s.out := hs.2.1 (by simp [hc.owner_eq_engine, hp])
    exact storageOk_of_owned (by simp) (hfull.writeAll (covers_of_asmFits hfits)) hs.2.2

/-! The storages of the host (R40, R211). -/

/-- An engine move leaves the host's storages alone; a completed `ASM` adds the one it hands over. -/
theorem hostStores_engineMove {s t : State} (hc : ControlOk s) (h : EngineMove s t) :
    hostStores t = hostStores s ∨ (s.phase = .asm ∧ t.phase = .done ∧ hostStores t = t.out :: hostStores s) := by
  cases h with
  | hold | granted | denied | indexed | generated | truncated | carried => exact .inl rfl
  | indexOverran | generationOverran | carryOverran | assemblyOverran => exact .inl rfl
  | assembled hp =>
    have ho : s.owner ≠ .host := by simp [hc.owner_eq_engine, hp]
    exact .inr ⟨hp, rfl, by rw [hostStores_of_ne_host ho]; rfl⟩

end Sys2Proof.Safety

/-! PROOFS. What each stage leaves in the digit buffer, from the state the stage before it leaves. -/

namespace Sys2Proof.Safety

open Sys2Proof.Machine

/-! The counts (R160, R161, R43). -/

theorem digitCount_le (ms : Bool) (fd : Int) : digitCount ms fd ≤ 6 := by
  simp only [digitCount, Config.maxDec]
  split <;> split <;> omega

/-- Millisecond mode shows at least three digits of the fraction, so that they reach the point. -/
theorem shownBefore_le_digitCount (ms : Bool) (fd : Int) : shownBefore ms ≤ digitCount ms fd := by
  cases ms with
  | false => exact Nat.zero_le _
  | true =>
    simp only [digitCount, shownBefore, Config.maxDec, Config.msShift, if_true]
    split <;> split <;> omega

theorem pointPosition_eq (ms : Bool) : pointPosition ms = 5 + shownBefore ms := by
  cases ms <;> rfl

theorem shownBefore_le (ms : Bool) : shownBefore ms ≤ 3 := by
  cases ms <;> decide

/-- R43: after `FDG` the point lies between the boundary and `END`, and `END` leaves slot 11 spare. -/
theorem CountsOk.range {s : State} (h : CountsOk s) :
    5 ≤ s.dpp.toNat ∧ s.dpp.toNat ≤ 8 ∧ s.dpp.toNat ≤ s.endCur.toNat ∧ s.endCur.toNat ≤ 11 := by
  obtain ⟨-, hdpp, hend⟩ := h
  have := digitCount_le s.ms s.fd.toInt
  have := shownBefore_le_digitCount s.ms s.fd.toInt
  have := shownBefore_le s.ms
  rw [pointPosition_eq] at hdpp
  rw [requestedDigits] at hend
  omega

theorem toNat_eq_integer_fraction (v : Word) :
    v.toNat = (integerPart v).toNat * 65536 + (fractionPart v).toNat := by
  have := v.isLt
  simp only [integerPart, fractionPart, BitVec.extractLsb'_toNat, Nat.shiftRight_eq_div_pow]
  omega

theorem toNat_ofNat4 {n : Nat} (h : n < 16) : (BitVec.ofNat 4 n).toNat = n :=
  Nat.mod_eq_of_lt h

theorem slot_ne_zero_iff (v : Slot) : v ≠ 0#4 ↔ v.toNat ≠ 0 := by
  rw [ne_eq, ne_eq, ← BitVec.toNat_inj]
  rfl

/-- Zeros on the left add nothing to the number. -/
theorem slotsFrom_eq_slotsValue {db : DigitBuffer} {f n : Nat} (h : ZeroBelow db f) (hf : f ≤ n) :
    slotsFrom db f (n - f) = slotsValue db n := by
  have hsplit := slotsFrom_add db 0 f (n - f)
  have hleft : slotsFrom db 0 f = 0 := slotsFrom_eq_zero fun i _ hi => h i (by omega)
  rw [hleft, Nat.zero_mul, Nat.zero_add, Nat.zero_add, Nat.add_sub_cancel' hf] at hsplit
  exact hsplit.symm

/-! `IDX` (R151). -/

/-- From the cleared buffer `IDX` leaves the number right-aligned at the boundary. -/
theorem idxRun_zeroBuffer {n f : Nat} {db : DigitBuffer} (h : idxRun n 5 zeroBuffer = .ok (f, db)) :
    f ≤ 4 ∧ ZeroBelow db f ∧ ZeroFrom db 5 ∧ DigitsOk db ∧ slotsValue db 5 = n ∧ (f = 4 ∨ slot db f ≠ 0#4) := by
  by_cases hn : n = 0
  · simp only [idxRun, if_pos hn, Except.ok.injEq, Prod.mk.injEq] at h
    obtain ⟨rfl, rfl⟩ := h
    exact ⟨le_refl _, fun i _ => slot_zeroBuffer i, fun i _ => slot_zeroBuffer i, digitsOk_zeroBuffer,
      by rw [hn]; exact slotsFrom_eq_zero fun i _ _ => slot_zeroBuffer i, .inl rfl⟩
  · rw [idxRun, if_neg hn] at h
    obtain ⟨hf, -, hframe⟩ := idxLoop_ok h
    obtain ⟨hval, hdig, hlead⟩ := idxLoop_value h
    have hzero : ∀ i, i < f ∨ 5 ≤ i → slot db i = 0#4 := fun i hi => by rw [hframe i hi, slot_zeroBuffer]
    refine ⟨by omega, fun i hi => hzero i (.inl hi), fun i hi => hzero i (.inr hi), fun i => ?_, ?_,
      .inr ((slot_ne_zero_iff _).mpr (hlead hn))⟩
    · by_cases hi : f ≤ i ∧ i < 5
      · exact hdig i hi.1 hi.2
      · simp [hzero i (by omega)]
    · exact (slotsFrom_eq_slotsValue (fun i hi => hzero i (.inl hi)) (by omega)).symm.trans hval

theorem AfterAcq.indexed {s : State} (hs : AfterAcq s) {f : Nat} {db : DigitBuffer}
    (hrun : idxRun (integerPart s.value).toNat s.firstCur.toNat s.db = .ok (f, db)) :
    AfterIdx { s with firstCur := BitVec.ofNat 4 f, db := db, phase := .frac } := by
  obtain ⟨hdb, hfirst, hend⟩ := hs
  rw [hdb, hfirst] at hrun
  obtain ⟨hf, hbelow, hfrom, hdig, hval, hlead⟩ := idxRun_zeroBuffer hrun
  have hcur := toNat_ofNat4 (show f < 16 by omega)
  refine ⟨⟨?_, ?_, ?_⟩, hdig, hfrom, hend, hval⟩
  · simpa only [hcur] using hf
  · simpa only [hcur] using hbelow
  · simp only [hcur]
    exact hlead.imp (fun h => by rw [h]) id

/-! `FDG` (R163). -/

/-- `WORK` stays below ten times 2^16 (R162). -/
theorem fdgLoop_work_le {k : Nat} {g g' : Generation} (hg : g.work.toNat ≤ 655350) (h : fdgLoop k g = .ok g') :
    g'.work.toNat ≤ 655350 := by
  induction k generalizing g with
  | zero =>
    simp only [fdgLoop, Except.ok.injEq] at h
    rwa [← h]
  | succ k ih =>
    simp only [fdgLoop] at h
    split at h
    · simp at h
    · refine ih ?_ h
      rw [toNat_workStep]
      omega

theorem toNat_generationStart_work (s : State) :
    (generationStart s).work.toNat = (fractionPart s.value).toNat :=
  BitVec.toNat_setWidth_of_le (by decide)

/-- The integer digits and the decimal places together are the scaled value, cut (R163). -/
theorem scaled_value (v : Word) (N : Nat) :
    v.toNat * 10 ^ N / 65536 = (integerPart v).toNat * 10 ^ N + (fractionPart v).toNat * 10 ^ N / 65536 ∧
      v.toNat * 10 ^ N % 65536 = (fractionPart v).toNat * 10 ^ N % 65536 := by
  have h : v.toNat * 10 ^ N = 65536 * ((integerPart v).toNat * 10 ^ N) + (fractionPart v).toNat * 10 ^ N := by
    rw [toNat_eq_integer_fraction v]
    ring
  rw [h]
  omega

/-- The left edge of the window lies in the slots left of the boundary. -/
theorem WindowOk.of_integer_slots_eq {s t : State} (hs : WindowOk s) (hfirst : t.firstCur = s.firstCur)
    (h : ∀ i, i < 5 → slot t.db i = slot s.db i) : WindowOk t := by
  obtain ⟨hle, hbelow, hlead⟩ := hs
  rw [WindowOk, hfirst]
  refine ⟨hle, fun i hi => ?_, ?_⟩
  · rw [h i (by omega), hbelow i hi]
  · rwa [h _ (by omega)]

/-- `FDG` sets the counts to those of the request (R160, R161). -/
theorem countsOk_generated (s : State) {g : Generation} (hend : g.endAt = 5 + digitCount s.ms s.fd.toInt) :
    CountsOk { s.generated g with phase := .round } := by
  have hN := digitCount_le s.ms s.fd.toInt
  refine ⟨Nat.mod_eq_of_lt (by omega), toNat_ofNat4 ?_, (toNat_ofNat4 (by omega)).trans hend⟩
  cases s.ms <;> decide

theorem AfterIdx.generated {s : State} (hs : AfterIdx s) {g : Generation}
    (hrun : fdgLoop (digitCount s.ms s.fd.toInt) (generationStart s) = .ok g) :
    AfterFdg { s.generated g with phase := .round } := by
  obtain ⟨hwin, hdig, hfrom, hend, hval⟩ := hs
  obtain ⟨hendAt, -, hframe⟩ := fdgLoop_ok hrun
  obtain ⟨hplaces, hrem, hdigits⟩ := fdgLoop_value hrun
  have hfrac : (fractionPart s.value).toNat < 65536 := (fractionPart s.value).isLt
  have hwork := toNat_generationStart_work s
  have hstart : (generationStart s).endAt = 5 := by simp [generationStart, hend]
  rw [hstart] at hendAt hframe hplaces hdigits
  rw [hwork, Nat.mod_eq_of_lt hfrac] at hplaces hrem
  have hleft : ∀ i, i < 5 → slot g.db i = slot s.db i := fun i hi => hframe i (.inl hi)
  have hzero : ZeroFrom g.db (5 + digitCount s.ms s.fd.toInt) := fun i hi => by
    rw [hframe i (.inr (by omega))]
    exact hfrom i (by omega)
  obtain ⟨hquot, hmod⟩ := scaled_value s.value (digitCount s.ms s.fd.toInt)
  refine ⟨hwin.of_integer_slots_eq rfl hleft, fun i => ?_, countsOk_generated s hendAt, hzero, ?_,
    hrem.trans hmod.symm, fdgLoop_work_le (by omega) hrun⟩
  · rcases Nat.lt_or_ge i 5 with hi | hi
    · exact (congrArg BitVec.toNat (hleft i hi)).trans_le (hdig i)
    · rcases Nat.lt_or_ge i g.endAt with hi' | hi'
      · exact hdigits i hi hi'
      · simp [hzero i (by omega)]
  · calc slotsFrom g.db 0 (5 + digitCount s.ms s.fd.toInt)
        = slotsFrom g.db 0 5 * 10 ^ digitCount s.ms s.fd.toInt + slotsFrom g.db 5 (digitCount s.ms s.fd.toInt) :=
          slotsFrom_add ..
      _ = slotsValue s.db 5 * 10 ^ digitCount s.ms s.fd.toInt + slotsFrom g.db 5 (digitCount s.ms s.fd.toInt) := by
          rw [slotsFrom_congr fun i _ hi => hleft i (by omega), slotsValue]
      _ = s.value.toNat * 10 ^ digitCount s.ms s.fd.toInt / 65536 := by rw [hval, hplaces, hquot]

/-! `RND` (R173). -/

/-- Half up, by the cut quotient and the remainder. -/
theorem roundedValue_eq (s : State) :
    roundedValue s.value s.fd.toInt s.ms = s.value.toNat * 10 ^ requestedDigits s / 65536 +
      if 32768 ≤ s.value.toNat * 10 ^ requestedDigits s % 65536 then 1 else 0 := by
  rw [roundedValue, ← requestedDigits]
  generalize s.value.toNat * 10 ^ requestedDigits s = x
  split <;> omega

theorem AfterFdg.truncated {s : State} (hs : AfterFdg s) (hr : roundUp s.work = false) :
    AfterRnd { s with phase := .asm } := by
  obtain ⟨hwin, hdig, hcounts, hfrom, hval, hwork, -⟩ := hs
  refine ⟨hwin, hdig, hcounts, hfrom, ?_⟩
  have hbelow : ¬ 32768 ≤ s.work.toNat % 65536 := by rw [← roundUp_iff, hr]; simp
  rw [hwork] at hbelow
  have hrounded := roundedValue_eq s
  rw [if_neg hbelow] at hrounded
  exact hval.trans hrounded.symm

/-- `RND`'s run is the decimal increment of the slots left of `END`. -/
theorem carryRun_ok {n p : Nat} {db db' : DigitBuffer} (hd : DigitsOk db) (h : carryRun n db = .ok (p, db')) :
    slotsValue db' n = slotsValue db n + 1 ∧ DigitsOk db' ∧ (slot db' p).toNat = (slot db p).toNat + 1 ∧ p < n ∧
      (∀ i, p < i → i < n → slot db i = 9#4) ∧ ∀ i, i < p ∨ n ≤ i → slot db' i = slot db i := by
  rw [carryRun, dbCap_eq] at h
  split at h
  case isFalse => simp at h
  case isTrue hn =>
    obtain ⟨hp, hframe⟩ := carryLoop_ok h
    obtain ⟨hval, hdig, hslot, hnines⟩ := carryLoop_value (by omega) (fun i _ => hd i) h
    rw [show n - 1 + 1 = n by omega] at hval
    refine ⟨hval, fun i => ?_, hslot, by omega, fun i h1 h2 => (hnines i h1 (by omega)).1, fun i hi =>
      hframe i (by omega)⟩
    rcases Nat.lt_or_ge (n - 1) i with hi | hi
    · rw [hframe i (.inr hi)]
      exact hd i
    · exact hdig i hi

/-- A carry that stops left of the window has found a zero there and left a 1; any other leaves a digit that is not
zero at `FIRST`, if one stood there (R172). -/
theorem WindowOk.carried {s : State} (hs : WindowOk s) (hd : DigitsOk s.db) {p : Nat} {db : DigitBuffer}
    (hrun : carryRun s.endCur.toNat s.db = .ok (p, db)) :
    WindowOk { s with
      db := db
      firstCur := if p < s.firstCur.toNat then BitVec.ofNat 4 p else s.firstCur
      phase := .asm } := by
  obtain ⟨hfirst, hbelow, hlead⟩ := hs
  obtain ⟨-, -, hslot, -, -, hframe⟩ := carryRun_ok hd hrun
  by_cases hp : p < s.firstCur.toNat
  · have hcur := toNat_ofNat4 (show p < 16 by omega)
    simp only [WindowOk, if_pos hp, hcur]
    refine ⟨by omega, fun i hi => ?_, .inr ((slot_ne_zero_iff _).mpr (by omega))⟩
    rw [hframe i (.inl hi), hbelow i (by omega)]
  · simp only [WindowOk, if_neg hp]
    refine ⟨hfirst, fun i hi => ?_, hlead.imp id fun h => ?_⟩
    · rw [hframe i (.inl (by omega)), hbelow i hi]
    · rcases Nat.eq_or_lt_of_le (Nat.le_of_not_lt hp) with heq | hlt
      · exact (slot_ne_zero_iff _).mpr (by rw [← heq] at hslot; omega)
      · rwa [hframe _ (.inl hlt)]

theorem AfterFdg.carried {s : State} (hs : AfterFdg s) (hr : roundUp s.work = true) {p : Nat} {db : DigitBuffer}
    (hrun : carryRun s.endCur.toNat s.db = .ok (p, db)) :
    AfterRnd { s with
      db := db
      firstCur := if p < s.firstCur.toNat then BitVec.ofNat 4 p else s.firstCur
      phase := .asm } := by
  obtain ⟨hwin, hdig, hcounts, hfrom, hval, hwork, -⟩ := hs
  obtain ⟨hinc, hdig', -, -, -, hframe⟩ := carryRun_ok hdig hrun
  rw [hcounts.2.2] at hinc hframe
  have hhalf := (roundUp_iff _).mp hr
  rw [hwork] at hhalf
  have hrounded := roundedValue_eq s
  rw [if_pos hhalf] at hrounded
  refine ⟨hwin.carried hdig hrun, hdig', hcounts, fun i hi => ?_, ?_⟩
  · exact (hframe i (.inr hi)).trans (hfrom i hi)
  · exact (hinc.trans (congrArg (· + 1) hval)).trans hrounded.symm

end Sys2Proof.Safety

/-! PROOFS. The characters of a digit window, and the closed form of R191. -/

namespace Sys2Proof.Safety

open Sys2Proof.Machine

theorem charDigit_eq (d : Slot) : charDigit d = digitByte d.toNat := by
  apply BitVec.eq_of_toNat_eq
  simp only [charDigit, digitByte, BitVec.toNat_add, BitVec.toNat_setWidth, BitVec.toNat_ofNat]
  omega

@[simp] theorem slotText_zero (db : DigitBuffer) (lo : Nat) : slotText db lo 0 = [] := rfl

theorem slotText_succ (db : DigitBuffer) (lo n : Nat) :
    slotText db lo (n + 1) = slotText db lo n ++ [digitByte (slot db (lo + n)).toNat] := by
  simp [slotText, List.range_succ]

theorem slotText_cons (db : DigitBuffer) (lo n : Nat) :
    slotText db lo (n + 1) = digitByte (slot db lo).toNat :: slotText db (lo + 1) n := by
  simp [slotText, List.range_succ_eq_map, Nat.add_assoc, Nat.add_comm 1]

/-- Left of the point, or from the point's digit on, `ASM`'s loop writes digits alone. -/
theorem digitChars_eq_slotText (db : DigitBuffer) {dpp k i : Nat} (h : i + k ≤ dpp ∨ dpp < i) :
    digitChars db dpp k i = slotText db i k := by
  induction k generalizing i with
  | zero => rfl
  | succ k ih =>
    rw [digitChars, if_neg (by omega), ih (by omega), slotText_cons, charDigit_eq]
    rfl

/-- `ASM`'s loop writes the digits left of the point, then the point and the digits right of it (R182). -/
theorem digitChars_eq (db : DigitBuffer) {dpp k i : Nat} (h : i ≤ dpp) :
    digitChars db dpp k i = slotText db i (min k (dpp - i)) ++
      if dpp < i + k then 0x2E#8 :: slotText db dpp (i + k - dpp) else [] := by
  induction k generalizing i with
  | zero => simp [digitChars, show ¬ dpp < i by omega]
  | succ k ih =>
    rcases Nat.eq_or_lt_of_le h with rfl | hlt
    · rw [digitChars, if_pos rfl, digitChars_eq_slotText db (.inr (by omega)), charDigit_eq, if_pos (by omega),
        Nat.add_sub_cancel_left, slotText_cons, Nat.sub_self, Nat.min_zero]
      rfl
    · rw [digitChars, if_neg (by omega), ih hlt, charDigit_eq,
        show min (k + 1) (dpp - i) = min k (dpp - (i + 1)) + 1 by omega, slotText_cons,
        show i + 1 + k = i + (k + 1) by omega]
      rfl

/-- What `ASM` writes is the text of the window (R182, R183). -/
theorem resultChars_eq_windowText (neg : Bool) (db : DigitBuffer) {first endAt dpp : Nat} (h : first ≤ dpp)
    (hend : dpp ≤ endAt) : resultChars neg db first endAt dpp = windowText neg db first dpp endAt := by
  rw [resultChars, digitChars_eq db h, windowText, List.append_assoc,
    show first + (endAt - first) = endAt by omega, show min (endAt - first) (dpp - first) = dpp - first by omega]
  rfl

/-- `n` slots in text are the number in them, padded to `n` digits. -/
theorem slotText_eq_padded {db : DigitBuffer} (hd : DigitsOk db) (lo n : Nat) :
    slotText db lo n = padded n (slotsFrom db lo n) := by
  induction n with
  | zero => rfl
  | succ n ih =>
    have := hd (lo + n)
    rw [slotText_succ, padded, slotsFrom_succ, ih]
    congr <;> omega

theorem slotsFrom_pos {db : DigitBuffer} {lo : Nat} (h : slot db lo ≠ 0#4) (n : Nat) :
    0 < slotsFrom db lo (n + 1) := by
  rw [Nat.add_comm, slotsFrom_add, slotsFrom_one]
  have := Nat.pos_of_ne_zero ((slot_ne_zero_iff _).mp h)
  positivity

/-- Slots in text are the shortest numeral of the number in them, where the first is not a superfluous zero. -/
theorem slotText_eq_numeralIn {db : DigitBuffer} (hd : DigitsOk db) {lo n fuel : Nat} (hfuel : n < fuel)
    (hlead : n = 0 ∨ slot db lo ≠ 0#4) :
    slotText db lo (n + 1) = numeralIn fuel (slotsFrom db lo (n + 1)) := by
  induction n generalizing fuel with
  | zero =>
    obtain ⟨fuel, rfl⟩ := Nat.exists_eq_succ_of_ne_zero (by omega : fuel ≠ 0)
    have := hd lo
    rw [numeralIn, slotsFrom_one, if_pos (by omega), slotText_cons, slotText_zero]
  | succ n ih =>
    obtain ⟨fuel, rfl⟩ := Nat.exists_eq_succ_of_ne_zero (by omega : fuel ≠ 0)
    have hne : slot db lo ≠ 0#4 := hlead.resolve_left (by omega)
    have hpos := slotsFrom_pos hne n
    have := hd (lo + (n + 1))
    rw [slotText_succ, ih (fuel := fuel) (by omega) (.inr hne), slotsFrom_succ db lo (n + 1), numeralIn,
      if_neg (by omega)]
    congr <;> omega

/-- A window whose first digit is not a superfluous zero reads as the number in the slots left of its end: the
numeral before the point, the places after it (R183, R191). -/
theorem windowText_eq {db : DigitBuffer} (hd : DigitsOk db) (neg : Bool) {f dpp : Nat} (k : Nat) (hf : f < dpp)
    (hdpp : dpp ≤ 8) (hbelow : ZeroBelow db f) (hlead : f + 1 = dpp ∨ slot db f ≠ 0#4) :
    windowText neg db f dpp (dpp + k) =
      (if neg then [0x2D#8] else []) ++ numeral (slotsValue db (dpp + k) / 10 ^ k) ++
        (if k > 0 then 0x2E#8 :: padded k (slotsValue db (dpp + k) % 10 ^ k) else []) := by
  have hwhole := slotsFrom_eq_slotsValue hbelow (Nat.le_of_lt hf)
  have hplaces := slotsFrom_lt hd dpp k
  have hsplit : slotsValue db (dpp + k) = slotsValue db dpp * 10 ^ k + slotsFrom db dpp k := by
    rw [slotsValue, slotsFrom_add, Nat.zero_add, slotsValue]
  have hdiv : slotsValue db (dpp + k) / 10 ^ k = slotsValue db dpp := by
    rw [hsplit, Nat.mul_comm, Nat.mul_add_div (by positivity), Nat.div_eq_of_lt hplaces, Nat.add_zero]
  have hmod : slotsValue db (dpp + k) % 10 ^ k = slotsFrom db dpp k := by
    rw [hsplit, Nat.mul_comm, Nat.mul_add_mod, Nat.mod_eq_of_lt hplaces]
  have hnum : slotText db f (dpp - f) = numeral (slotsValue db dpp) := by
    have htext := slotText_eq_numeralIn hd (lo := f) (show dpp - f - 1 < 8 by omega) (hlead.imp (by omega) id)
    rwa [show dpp - f - 1 + 1 = dpp - f by omega, hwhole] at htext
  rw [windowText, hdiv, hmod, hnum, slotText_eq_padded hd, Nat.add_sub_cancel_left]
  simp

/-! `ASM` (R124, R126). -/

/-- A completed `ASM` delivers the characters it wrote and the terminator. -/
theorem delivers_assembled {s : State} {cs : List Byte} (hf : s.fault = .none) (hlen : cs.length < 16) :
    Delivers (s.assembled cs) (cs ++ [charNul]) := by
  have hl : (s.assembled cs).len.toNat + 1 = (cs ++ [charNul]).length := by
    rw [State.assembled_len, toNat_ofNat4 hlen, List.length_append]
    rfl
  refine ⟨rfl, rfl, hf, hl, ?_⟩
  rw [resultBytes, hl, State.assembled_out]
  refine List.ext_getElem (by simp) fun i _ hi => ?_
  rw [List.length_map] at hi
  simp only [List.getElem_map, List.getElem_range]
  rw [Memory.read_writeAll, if_pos (by omega), Nat.sub_zero, List.getElem?_eq_getElem hi]

/-- Trimming stops left of the point, on a digit that is not zero or right before the point, over zeros (R180). -/
theorem trim_ok {s : State} {f : Nat} (hwin : WindowOk s) (hdpp : 5 ≤ s.dpp.toNat)
    (h : trim s.db s.firstCur.toNat s.dpp.toNat = .ok f) :
    f < s.dpp.toNat ∧ ZeroBelow s.db f ∧ (f + 1 = s.dpp.toNat ∨ slot s.db f ≠ 0#4) := by
  obtain ⟨hfirst, hbelow, -⟩ := hwin
  obtain ⟨-, hle, hzero, hstop⟩ := trimLoop_ok h
  refine ⟨by omega, fun i hi => ?_, hstop.imp (by omega) id⟩
  rcases Nat.lt_or_ge i s.firstCur.toNat with hlt | hge
  · exact hbelow i hlt
  · exact hzero i hge hi

/-- What `ASM` writes after `RND` is the closed form of the latched request (R191). -/
theorem AfterRnd.resultChars_eq {s : State} (hs : AfterRnd s) {f : Nat}
    (htrim : trim s.db s.firstCur.toNat s.dpp.toNat = .ok f) :
    resultChars s.neg s.db f s.endCur.toNat s.dpp.toNat = closedString s.value s.neg s.fd.toInt s.ms := by
  obtain ⟨hwin, hdig, hcounts, -, hval⟩ := hs
  obtain ⟨hdpp5, hdpp8, hdppEnd, -⟩ := hcounts.range
  obtain ⟨hf, hbelow, hlead⟩ := trim_ok hwin hdpp5 htrim
  have hend : s.dpp.toNat + shownAfter s.fd.toInt s.ms = 5 + requestedDigits s := by
    have := shownBefore_le_digitCount s.ms s.fd.toInt
    rw [hcounts.2.1, pointPosition_eq, shownAfter, requestedDigits]
    omega
  rw [resultChars_eq_windowText _ _ (by omega) hdppEnd, hcounts.2.2, ← hend,
    windowText_eq hdig s.neg _ hf hdpp8 hbelow hlead, hend, hval]
  rfl

theorem AfterRnd.assembled {s : State} (hs : AfterRnd s) (hfault : s.fault = .none) {f : Nat}
    (htrim : trim s.db s.firstCur.toNat s.dpp.toNat = .ok f) :
    AfterAsm ({ s with firstCur := BitVec.ofNat 4 f }.assembled
      (resultChars s.neg s.db f s.endCur.toNat s.dpp.toNat)) := by
  have hchars := hs.resultChars_eq htrim
  obtain ⟨hwin, -, hcounts, -, -⟩ := hs
  obtain ⟨hdpp5, hdpp8, hdppEnd, hend⟩ := hcounts.range
  obtain ⟨hf, -, -⟩ := trim_ok hwin hdpp5 htrim
  have hlen : (resultChars s.neg s.db f s.endCur.toNat s.dpp.toNat).length < 16 := by
    have hneed := length_resultChars s.neg s.db (endAt := s.endCur.toNat) (Nat.le_of_lt hf)
    have hsign := Bool.toNat_le s.neg
    rw [bytesNeeded] at hneed
    split at hneed <;> omega
  refine ⟨hcounts, ?_, hdppEnd, ?_⟩
  · simpa [Nat.mod_eq_of_lt (show f < 16 by omega)] using hf
  · have hdel := delivers_assembled (s := { s with firstCur := BitVec.ofNat 4 f }) hfault hlen
    rw [hchars] at hdel ⊢
    exact hdel

/-! Every engine move, from the stage before to the stage after. -/

theorem DataOk.engineMove {s t : State} (hs : DataOk s) (hc : ControlOk s) (h : EngineMove s t) : DataOk t := by
  cases h with
  | hold => exact hs
  | granted => exact ⟨rfl, rfl, rfl⟩
  | denied | indexOverran | generationOverran | carryOverran | assemblyOverran => trivial
  | indexed hp f db hrun =>
    rw [DataOk, hp] at hs
    exact hs.indexed hrun
  | generated hp g hrun =>
    rw [DataOk, hp] at hs
    exact hs.generated hrun
  | truncated hp hr =>
    rw [DataOk, hp] at hs
    exact hs.truncated hr
  | carried hp hr p db hrun =>
    rw [DataOk, hp] at hs
    exact hs.carried hr hrun
  | assembled hp f htrim =>
    rw [DataOk, hp] at hs
    exact hs.assembled (hc.fault_eq_none (by simp [hp])) htrim

end Sys2Proof.Safety

/-! PROOFS. The obligations on the state, its registers and its invariants. -/

namespace Sys2Proof.Proofs

open Sys2Proof.Machine Sys2Proof.Safety

/-- Settles O36: the four parts of the invariant, each kept by reset, by an accepted START and by every engine move. -/
theorem everyStepKeepsTheInvariant : Obligations.EveryStepKeepsTheInvariant := by
  intro s t hs h
  refine step_preserves (P := Inv) (fun _ hs => hs) ?reset ?latch ?engine hs h
  case reset =>
    rintro s ⟨hmem, hstore, -, -⟩
    exact ⟨hmem.resetInput, hstore.resetInput, controlOk_resetInput s, trivial⟩
  case latch =>
    rintro s v n f m hp ⟨hmem, hstore, hctl, -⟩
    exact ⟨hmem, hstore, hctl.latch hp v n f m, trivial⟩
  case engine =>
    rintro s t ⟨hmem, hstore, hctl, hdata⟩ hmove
    exact ⟨hmem.engineMove hmove, hstore.engineMove hctl hmove, hctl.engineMove hmove, hdata.engineMove hctl hmove⟩

/-- Settles O39: outside a completed `ASM` the storages of the host only change their place in the state. -/
theorem hostStoragesAreNeverTouched : Obligations.HostStoragesAreNeverTouched := by
  intro s t hctl h
  cases stepMove_of_step h with
  | reset | started | dropped => exact .inl rfl
  | engine _ _ hmove => exact hostStores_engineMove (s := s.moved) hctl hmove

/-- Settles O11, by the outcome of the step: the registers its constructor writes are those of the phase. -/
theorem registersChangeOnlyByTheirWriters : Obligations.RegistersChangeOnlyByTheirWriters := by
  intro s t h hm
  cases stepMove_of_step h with
  | reset hr => exact absurd hr hm
  | started r _ hp => simp [State.moved, hp]
  | dropped => simp [State.moved]
  | engine _ _ hmove =>
    cases hmove with
    | hold => simp [State.moved]
    | granted hp | denied hp | indexed hp | indexOverran hp | generated hp | generationOverran hp | truncated hp
    | carried hp | carryOverran hp | assembled hp | assemblyOverran hp =>
      have hp : s.phase = _ := hp
      simp [State.moved, hp]

/-- Settles O33: written storages stay sorted, and fresh ones are. -/
theorem storageStaysCanonical : Obligations.StorageStaysCanonical := by
  intro s t hs h
  exact step_preserves (P := MemoryOk) (fun _ hs => hs) (fun _ hs => hs.resetInput) (fun _ _ _ _ _ _ hs => hs)
    (fun _ _ hs => hs.engineMove) hs h

/-- Settles O34: reset, START and every engine move keep the two predicates together. -/
theorem ownershipAndFaultsStayInStep : Obligations.OwnershipAndFaultsStayInStep := by
  intro s t hstore hctl h
  exact step_preserves (P := fun s => StorageOk s ∧ ControlOk s) (fun _ hs => hs)
    (fun s hs => ⟨hs.1.resetInput, controlOk_resetInput s⟩)
    (fun _ v n f m hp hs => ⟨hs.1, hs.2.latch hp v n f m⟩)
    (fun _ _ hs hmove => ⟨hs.1.engineMove hs.2 hmove, hs.2.engineMove hmove⟩) ⟨hstore, hctl⟩ h

/-- Settles O38: the counts bound the point and `END`, and `FIRST` is at most 4 until `ASM` trims it to the point. -/
theorem windowAndPointStayInRange : Obligations.WindowAndPointStayInRange := by
  rintro s ⟨-, -, -, hdata⟩ hp
  rcases hp with hp | hp | hp <;> rw [DataOk, hp] at hdata
  · obtain ⟨⟨hfirst, -, -⟩, -, hcounts, -⟩ := hdata
    have := hcounts.range
    omega
  · obtain ⟨⟨hfirst, -, -⟩, -, hcounts, -⟩ := hdata
    have := hcounts.range
    omega
  · obtain ⟨hcounts, hfirst, hdpp, -⟩ := hdata
    have := hcounts.range
    omega

/-- The answer just taken is forgotten. -/
theorem drawn_with_answers (s : State) {a : List Bool} (h : a.tail = s.answers.tail) :
    State.drawn { s with answers := a } = s.drawn := by
  simp [State.drawn, h]

/-- Settles O18: the free value taken as a listed answer is drawn the same way. -/
theorem acqWithoutListedAnswerIsEither : Obligations.AcqWithoutListedAnswerIsEither := by
  intro s hp ha
  refine ⟨_, rfl, ?_⟩
  have hgrant : s.grant = Config.grant s.draws := by simp [State.grant, ha]
  have hlisted : State.grant { s with answers := [Config.grant s.draws] } = s.grant := hgrant.symm
  rw [exec_acq, exec_acq, if_pos hp, if_pos hp, acquireOp, acquireOp, hlisted]
  cases s.grant with
  | true => exact congrArg _ (drawn_with_answers s.acquire (by simp [ha])).symm
  | false => exact congrArg _ (drawn_with_answers (s.raise .noBuffer) (by simp [ha])).symm

/-- Settles O32: each read is gated by the phase, by `FAULT` or by `LEN`, as R45 and R244 say. -/
theorem hostReadsTheResultInDoneOnly : Obligations.HostReadsTheResultInDoneOnly := by
  intro s off
  refine ⟨rfl, rfl, fun hf => if_neg hf, fun hp => ⟨if_neg hp, if_neg fun h => hp h.1⟩,
    fun hp => ⟨if_pos hp, fun hoff => if_pos ⟨hp, hoff⟩, fun hoff => if_neg fun h => by omega⟩, ?_, ?_⟩
  · unfold response
    cases s.phase <;> simp
  · unfold response
    cases s.phase <;> simp

end Sys2Proof.Proofs

/-! PROOFS. The encoded formats as numbers: a request word by its fields' weights, a list of bytes by powers of 256. -/

namespace Sys2Proof

/-! Bits as numbers. -/

theorem toNat_append_eq_add {m n : Nat} (u : BitVec m) (v : BitVec n) :
    (u ++ v).toNat = u.toNat * 2 ^ n + v.toNat := by
  rw [BitVec.toNat_append, ← Nat.shiftLeft_add_eq_or_of_lt v.isLt, Nat.shiftLeft_eq]

theorem extractLsb'_ofNat {n start len : Nat} (h : start + len ≤ n) (w : Nat) :
    (BitVec.ofNat n w).extractLsb' start len = BitVec.ofNat len (w / 2 ^ start) := by
  ext i hi
  simp [BitVec.getElem_eq_testBit_toNat, Nat.testBit_div_two_pow, hi, show start + i < n by omega, Nat.add_comm]

theorem testBit_eq_iff (x n : Nat) (b : Bool) : x.testBit n = b ↔ b.toNat = x / 2 ^ n % 2 := by
  rw [← Nat.toNat_testBit]
  cases x.testBit n <;> cases b <;> decide

/-! The request word (R91). -/

/-- The fields of a request word by division. -/
theorem decodeReq_eq_iff (w : ReqWord) (value : Word) (neg : Bool) (fd : Half) (ms : Bool) :
    decodeReq w = .format value neg fd ms ↔
      value.toNat = w.toNat % 2 ^ 32 ∧ fd.toNat = w.toNat / 2 ^ 32 % 2 ^ 16 ∧
      neg.toNat = w.toNat / 2 ^ 48 % 2 ∧ ms.toNat = w.toNat / 2 ^ 49 := by
  rw [decodeReq, Instr.format.injEq, ← BitVec.toNat_inj, ← BitVec.toNat_inj, BitVec.extractLsb'_toNat,
    BitVec.extractLsb'_toNat, BitVec.getLsbD, BitVec.getLsbD, testBit_eq_iff, testBit_eq_iff, Nat.shiftRight_zero,
    Nat.shiftRight_eq_div_pow]
  omega

theorem toNat_encodeReq (value : Word) (neg : Bool) (fd : Half) (ms : Bool) :
    (encodeReq value neg fd ms).toNat =
      ms.toNat * 2 ^ 49 + neg.toNat * 2 ^ 48 + fd.toNat * 2 ^ 32 + value.toNat := by
  simp only [encodeReq, toNat_append_eq_add, BitVec.toNat_ofBool]
  omega

theorem decodeReq_encodeReq (value : Word) (neg : Bool) (fd : Half) (ms : Bool) :
    decodeReq (encodeReq value neg fd ms) = .format value neg fd ms := by
  have := value.isLt
  have := fd.isLt
  have := neg.toNat_lt
  rw [decodeReq_eq_iff, toNat_encodeReq]
  omega

theorem encode_decodeReq (w : ReqWord) : encode (decodeReq w) = .req w := by
  obtain ⟨hvalue, hfd, hneg, hms⟩ := (decodeReq_eq_iff w _ _ _ _).mp rfl
  refine congrArg Encoded.req (BitVec.eq_of_toNat_eq ?_)
  rw [toNat_encodeReq, hvalue, hfd, hneg, hms]
  omega

/-! The phase code (R92, R99). -/

theorem encode_decodePh (c : PhaseCode) : encode (decodePh c) = .ph c := by
  decide +revert

/-! Both formats. -/

/-- R98: no operation is ill-formed. -/
theorem wellFormed_eq_true (i : Instr) : WellFormed i = true := by
  cases i <;> rfl

theorem encode_decode (e : Encoded) : encode (decode e) = e := by
  cases e with
  | req w => exact encode_decodeReq w
  | ph c => exact encode_decodePh c

theorem decode_encode (i : Instr) : decode (encode i) = i := by
  cases i with
  | format value neg fd ms => exact decodeReq_encodeReq value neg fd ms
  | idle | acq | idx | fdg | rnd | asm | done | faulted => rfl

/-! Words in whole bytes (log 11). -/

@[simp] theorem length_bytesOf (n w : Nat) : (bytesOf n w).length = n := by
  induction n generalizing w with
  | zero => rfl
  | succ n ih => rw [bytesOf, List.length_cons, ih]

/-- The byte form of a word. -/
def Encoded.bytes : Encoded → List Byte
  | .req w => bytesOf 7 w.toNat
  | .ph c => bytesOf 1 c.toNat

theorem encodeBytes_eq (i : Instr) : encodeBytes i = (encode i).bytes := by
  unfold encodeBytes Encoded.bytes
  rfl

/-- A number's next byte continues its low bits. -/
theorem ofNat_append_byte (k w : Nat) :
    BitVec.ofNat k (w / 256) ++ BitVec.ofNat 8 w = BitVec.ofNat (k + 8) w := by
  apply BitVec.eq_of_toNat_eq
  rw [toNat_append_eq_add, BitVec.toNat_ofNat, BitVec.toNat_ofNat, BitVec.toNat_ofNat, Nat.add_comm k, Nat.pow_add,
    Nat.mod_mul, Nat.mul_comm, Nat.add_comm]

theorem ofNat_eq_zero_iff (n w : Nat) : BitVec.ofNat n w = 0#n ↔ w % 2 ^ n = 0 := by
  rw [← BitVec.toNat_inj, BitVec.toNat_ofNat, BitVec.toNat_zero]

theorem decodeBytes_bytesOf_one (w : Nat) :
    decodeBytes (bytesOf 1 w) =
      if w / 2 ^ 3 % 2 ^ 5 = 0 then .ok (decodePh (BitVec.ofNat 3 w)) else .error .phasePadding := by
  simp only [bytesOf, decodeBytes, extractLsb'_ofNat, Nat.reduceAdd, Nat.reduceLeDiff, ofNat_eq_zero_iff, Nat.pow_zero,
    Nat.div_one]

theorem decodeBytes_bytesOf_seven (w : Nat) :
    decodeBytes (bytesOf 7 w) =
      if w / 2 ^ 50 % 2 ^ 6 = 0 then .ok (decodeReq (BitVec.ofNat 50 w)) else .error .requestPadding := by
  simp only [bytesOf, decodeBytes, ofNat_append_byte, extractLsb'_ofNat, Nat.reduceAdd, Nat.reduceLeDiff,
    ofNat_eq_zero_iff, Nat.pow_zero, Nat.div_one]

/-- The decoder accepts one byte or seven. -/
theorem length_of_decodeBytes {bs : List Byte} {i : Instr} (h : decodeBytes bs = .ok i) :
    bs.length = 1 ∨ bs.length = 7 := by
  unfold decodeBytes at h
  split at h
  · exact .inl rfl
  · exact .inr rfl
  · simp at h

/-- A list of bytes is the byte form of the number it spells. -/
theorem exists_eq_bytesOf (bs : List Byte) : ∃ w, w < 256 ^ bs.length ∧ bs = bytesOf bs.length w := by
  induction bs with
  | nil => exact ⟨0, by simp, rfl⟩
  | cons b bs ih =>
    obtain ⟨w, hw, hbs⟩ := ih
    have hb := b.isLt
    refine ⟨b.toNat + 256 * w, ?_, ?_⟩
    · rw [List.length_cons, Nat.pow_succ]
      omega
    · rw [List.length_cons, bytesOf, show (b.toNat + 256 * w) / 256 = w by omega, ← hbs]
      congr 1
      exact BitVec.eq_of_toNat_eq (by rw [BitVec.toNat_ofNat]; omega)

/-- The numbers whose low `n` bytes the decoder accepts, and what it reads from them. -/
theorem decodeBytes_bytesOf_eq_ok {n w : Nat} {i : Instr} (h : decodeBytes (bytesOf n w) = .ok i) :
    (n = 1 ∧ w / 2 ^ 3 % 2 ^ 5 = 0 ∧ i = decode (.ph (BitVec.ofNat 3 w))) ∨
      (n = 7 ∧ w / 2 ^ 50 % 2 ^ 6 = 0 ∧ i = decode (.req (BitVec.ofNat 50 w))) := by
  have hlen := length_of_decodeBytes h
  rw [length_bytesOf] at hlen
  rcases hlen with rfl | rfl
  · rw [decodeBytes_bytesOf_one] at h
    split at h
    · exact .inl ⟨rfl, ‹_›, (Except.ok.inj h).symm⟩
    · simp at h
  · rw [decodeBytes_bytesOf_seven] at h
    split at h
    · exact .inr ⟨rfl, ‹_›, (Except.ok.inj h).symm⟩
    · simp at h

/-- The byte form is read back. -/
theorem decodeBytes_bytes (e : Encoded) : decodeBytes e.bytes = .ok (decode e) := by
  cases e with
  | req w =>
    have := w.isLt
    rw [Encoded.bytes, decodeBytes_bytesOf_seven, if_pos (by omega), BitVec.ofNat_toNat, BitVec.setWidth_eq]
    rfl
  | ph c =>
    have := c.isLt
    rw [Encoded.bytes, decodeBytes_bytesOf_one, if_pos (by omega), BitVec.ofNat_toNat, BitVec.setWidth_eq]
    rfl

/-- Only byte forms are accepted. -/
theorem exists_eq_bytes_of_decodeBytes {bs : List Byte} {i : Instr} (h : decodeBytes bs = .ok i) :
    ∃ e, decode e = i ∧ bs = Encoded.bytes e := by
  obtain ⟨w, hw, hbs⟩ := exists_eq_bytesOf bs
  rw [hbs] at h
  rcases decodeBytes_bytesOf_eq_ok h with ⟨hn, hpad, hi⟩ | ⟨hn, hpad, hi⟩ <;> rw [hn] at hw hbs <;>
    refine ⟨_, hi.symm, ?_⟩ <;> rw [hbs, Encoded.bytes, BitVec.toNat_ofNat, Nat.mod_eq_of_lt (by omega)]

/-- What the decoder reads from a word of the opcode table, by the number of bits given. -/
theorem decodeTableWord_eq_some {nbits w : Nat} {i : Instr} (h : decodeTableWord nbits w = some i) :
    (wholeBytes nbits = 1 ∧ i = decode (.ph (BitVec.ofNat 3 w))) ∨
      (wholeBytes nbits = 7 ∧ i = decode (.req (BitVec.ofNat 50 w))) := by
  rw [decodeTableWord] at h
  cases hd : decodeBytes (bytesOf (wholeBytes nbits) w) with
  | error e => simp [hd, Except.toOption] at h
  | ok j =>
    obtain rfl : j = i := by simpa [hd, Except.toOption] using h
    exact (decodeBytes_bytesOf_eq_ok hd).imp (And.imp_right And.right) (And.imp_right And.right)

end Sys2Proof

/-! PROOFS. What the next step runs, by where its operation stands: on the request port or in `PHASE`. -/

namespace Sys2Proof.Machine

/-! One step, by the head of the host's list of moves (log 1). -/

theorem step_of_silent {s : State} (h : s.inputs = []) : step s = exec (decode (.ph (phaseCode s.phase))) s := by
  rw [step, fetch, h]
  rfl

theorem step_of_quiet {s : State} {rest : List HostInput} (h : s.inputs = .quiet :: rest) :
    step s = exec (decode (.ph (phaseCode s.phase))) { s with inputs := rest } := by
  rw [step, fetch, h]
  rfl

theorem step_of_start {s : State} {rest : List HostInput} {r : ReqWord} (h : s.inputs = .start r :: rest) :
    step s = exec (decode (.req r)) { s with inputs := rest } := by
  rw [step, fetch, h]
  rfl

theorem step_of_reset {s : State} {rest : List HostInput} (h : s.inputs = .reset :: rest) :
    step s = .next ({ s with inputs := rest } : State).resetInput := by
  rw [step, fetch, h]
  rfl

/-! A word of the opcode table where the next step fetches it (log 13). -/

theorem phaseCode_phaseOfCode (c : PhaseCode) : phaseCode (phaseOfCode c) = c := by
  decide +revert

theorem withFetchWord_phase {nbits : Nat} (h : wholeBytes nbits = 1) (s : State) (w : Nat) :
    s.withFetchWord nbits w =
      { s with phase := phaseOfCode (BitVec.ofNat 3 w), inputs := .quiet :: s.inputs } := by
  simp only [State.withFetchWord, placeWord, h]

theorem withFetchWord_request {nbits : Nat} (h : wholeBytes nbits = 7) (s : State) (w : Nat) :
    s.withFetchWord nbits w = { s with inputs := .start (BitVec.ofNat 50 w) :: s.inputs } := by
  simp only [State.withFetchWord, placeWord, h]

theorem step_withFetchWord_phase {nbits : Nat} (h : wholeBytes nbits = 1) (s : State) (w : Nat) :
    step (s.withFetchWord nbits w) =
      exec (decode (.ph (BitVec.ofNat 3 w))) { s with phase := phaseOfCode (BitVec.ofNat 3 w) } := by
  rw [withFetchWord_phase h, step_of_quiet rfl, phaseCode_phaseOfCode]

theorem step_withFetchWord_request {nbits : Nat} (h : wholeBytes nbits = 7) (s : State) (w : Nat) :
    step (s.withFetchWord nbits w) = exec (decode (.req (BitVec.ofNat 50 w))) s := by
  rw [withFetchWord_request h, step_of_start rfl]

/-! The host selects the operations of request words and no others (R97). -/

@[simp] theorem hostSelectable_decode_req (w : ReqWord) : hostSelectable (decode (.req w)) = true := rfl

@[simp] theorem hostSelectable_decode_ph (c : PhaseCode) : hostSelectable (decode (.ph c)) = false := by
  decide +revert

/-- An engine operation outside its phase is not enabled (log 10). -/
theorem engineStep_of_ne {p : Phase} {s : State} (h : s.phase ≠ p) (op : State → State) :
    engineStep p op s = .next s := by
  rw [engineStep, if_neg h]

end Sys2Proof.Machine

/-! PROOFS. The obligations on the encoding, and on what a step fetches. -/

namespace Sys2Proof.Proofs

open Sys2Proof.Machine Sys2Proof.Safety

/-- Settles O3: the fields' weights do not overlap, and the byte form spells the word. -/
theorem decodeOfEncode : Obligations.DecodeOfEncode := by
  intro i _
  refine ⟨decode_encode i, ?_⟩
  rw [encodeBytes_eq, decodeBytes_bytes, decode_encode]

/-- Settles O2: a field is a run of bits, and a run of bits is a remainder of a quotient. -/
theorem requestFieldsByPosition : Obligations.RequestFieldsByPosition :=
  decodeReq_eq_iff

/-- Settles O4: the decoder loses no bit of a word. -/
theorem encodeOfDecode : Obligations.EncodeOfDecode :=
  fun e => ⟨wellFormed_eq_true (decode e), encode_decode e⟩

/-- Settles O5: an accepted list is the byte form of a word, which is the encoding of what it decodes to. -/
theorem acceptedBytesAreCanonical : Obligations.AcceptedBytesAreCanonical := by
  intro bs i h
  obtain ⟨e, rfl, rfl⟩ := exists_eq_bytes_of_decodeBytes h
  rw [encodeBytes_eq, encode_decode]

/-- Settles O6, by the head of the host's list. -/
theorem stepRunsDecodedOperation : Obligations.StepRunsDecodedOperation :=
  fun _ _ _ => ⟨step_of_silent, step_of_quiet, step_of_start, step_of_reset⟩

/-- Settles O8: the number of bits says which of the two formats the decoder reads and where the word is placed. -/
theorem placedWordRunsNext : Obligations.PlacedWordRunsNext := by
  intro s nbits w i h
  rcases decodeTableWord_eq_some h with ⟨hn, rfl⟩ | ⟨hn, rfl⟩
  · exact ⟨fun hsel => by simp at hsel,
      fun _ => ⟨_, by rw [phaseCode_phaseOfCode], step_withFetchWord_phase hn s w⟩⟩
  · exact ⟨fun _ => step_withFetchWord_request hn s w, fun hsel => by simp at hsel⟩

/-- Settles O1: eleven closed words, decoded. -/
theorem specWordsDecode : Obligations.SpecWordsDecode := by
  unfold Obligations.SpecWordsDecode
  decide

/-- Settles O15: each arm of `exec` is gated by its phase. -/
theorem operationsWaitForTheirPhase : Obligations.OperationsWaitForTheirPhase :=
  fun _ => ⟨fun h => engineStep_of_ne h _, fun h => engineStep_of_ne h _, fun h => engineStep_of_ne h _,
    fun h => engineStep_of_ne h _, fun h => engineStep_of_ne h _⟩

end Sys2Proof.Proofs

/-! PROOFS. Each stage completes on what the stage before it leaves (R200): the run of its loop is no error. -/

namespace Sys2Proof.Safety

open Sys2Proof.Machine

/-- An integer part has at most five digits, and the boundary leaves five slots for them. -/
theorem AfterAcq.idxRun_ne_error {s : State} (hs : AfterAcq s) (e : Nat × DigitBuffer) :
    idxRun (integerPart s.value).toNat s.firstCur.toNat s.db ≠ .error e := by
  obtain ⟨hdb, hfirst, -⟩ := hs
  have hpart := (integerPart s.value).isLt
  rw [hdb, hfirst]
  by_cases hn : (integerPart s.value).toNat = 0
  · simp [idxRun, hn]
  · obtain ⟨f, db, hrun⟩ := idxLoop_completes (first := 5) zeroBuffer hn (by omega) (by decide)
    simp [idxRun, hn, hrun]

/-- At most six digits follow the boundary. -/
theorem AfterIdx.fdgLoop_ne_error {s : State} (hs : AfterIdx s) (g : Generation) :
    fdgLoop (digitCount s.ms s.fd.toInt) (generationStart s) ≠ .error g := by
  obtain ⟨-, -, -, hend, -⟩ := hs
  have hN := digitCount_le s.ms s.fd.toInt
  have hstart : (generationStart s).endAt = 5 := by simp [generationStart, hend]
  obtain ⟨g', hrun⟩ :=
    fdgLoop_completes (k := digitCount s.ms s.fd.toInt) (g := generationStart s) (.inr (by omega))
  simp [hrun]

/-- A carry out of slot 0 needs a 9 there, and no integer part has 9 ten-thousands. -/
theorem AfterFdg.carryRun_ne_error {s : State} (hs : AfterFdg s) (db : DigitBuffer) :
    carryRun s.endCur.toNat s.db ≠ .error db := by
  obtain ⟨-, hdig, hcounts, -, hval, -, -⟩ := hs
  have hrange := hcounts.range
  intro hrun
  rw [carryRun, dbCap_eq, if_pos (by omega)] at hrun
  have hnine : slot s.db 0 = 9#4 := carryLoop_error (fun i _ => hdig i) hrun 0 (Nat.zero_le _)
  have hlow : slotsValue s.db (5 + requestedDigits s) =
      9 * 10 ^ (4 + requestedDigits s) + slotsFrom s.db 1 (4 + requestedDigits s) := by
    rw [slotsValue, show 5 + requestedDigits s = 1 + (4 + requestedDigits s) by omega, slotsFrom_add, slotsFrom_one,
      hnine]
    rfl
  have hhigh : s.value.toNat * 10 ^ requestedDigits s / 65536 < 65536 * 10 ^ requestedDigits s := by
    rw [Nat.div_lt_iff_lt_mul (by decide), Nat.mul_right_comm]
    exact Nat.mul_lt_mul_of_pos_right s.value.isLt (by positivity)
  have hplaces : 0 < 10 ^ requestedDigits s := by positivity
  rw [← hval, hlow, Nat.pow_add] at hhigh
  omega

/-- `FIRST` is trimmed inside the buffer. -/
theorem AfterRnd.trim_ne_error {s : State} (hs : AfterRnd s) (f : Nat) :
    trim s.db s.firstCur.toNat s.dpp.toNat ≠ .error f := by
  obtain ⟨⟨hfirst, -, -⟩, -, hcounts, -, -⟩ := hs
  have := hcounts.range
  obtain ⟨f', hrun⟩ := trimLoop_completes s.db (k := s.dpp.toNat - 1 - s.firstCur.toNat) (first := s.firstCur.toNat)
    (by omega)
  simp [trim, hrun]

/-- A whole storage holds the sign, eleven digits, the point and the terminator (R199). -/
theorem AfterRnd.asmFits {s : State} (hs : AfterRnd s) (hout : FullStorage s.out) (f : Nat) :
    asmFits s f = true := by
  obtain ⟨-, -, hcounts, -, -⟩ := hs
  obtain ⟨-, -, -, hend⟩ := hcounts.range
  have hneed : bytesNeeded s.neg f s.endCur.toNat s.dpp.toNat ≤ Config.outCap := by
    have := Bool.toNat_le s.neg
    have := le_outCap
    rw [bytesNeeded]
    split <;> omega
  rw [Machine.asmFits, Bool.and_eq_true, Memory.covers_iff, dbCap_eq, decide_eq_true_eq]
  exact ⟨fun off hoff => (hout off).mpr (by omega), by omega⟩

/-- The phase a completed stage goes on to (R127). -/
def stageAfter : Phase → Phase
  | .int => .frac
  | .frac => .round
  | .round => .asm
  | p => p

/-- `IDX`, `FDG` and `RND` complete and leave every storage alone. -/
theorem engineMove_completes {s t : State} (hs : DataOk s) (h : EngineMove s t)
    (hp : s.phase = .int ∨ s.phase = .frac ∨ s.phase = .round) :
    t.phase = stageAfter s.phase ∧ t.out = s.out ∧ t.kept = s.kept := by
  cases h with
  | hold hq => rcases hq with hq | hq | hq <;> simp [hq] at hp
  | granted hq | denied hq | assembled hq | assemblyOverran hq => simp [hq] at hp
  | indexed hq | generated hq | truncated hq | carried hq => rw [hq]; exact ⟨rfl, rfl, rfl⟩
  | indexOverran hq f db hrun =>
    rw [DataOk, hq] at hs
    exact absurd hrun (hs.idxRun_ne_error _)
  | generationOverran hq g hrun =>
    rw [DataOk, hq] at hs
    exact absurd hrun (hs.fdgLoop_ne_error g)
  | carryOverran hq _ db hrun =>
    rw [DataOk, hq] at hs
    exact absurd hrun (hs.carryRun_ne_error db)

/-- `ASM` completes on a whole storage and writes the bytes of the latched request there (R191). -/
theorem engineMove_assembles {s t : State} (hs : DataOk s) (hout : FullStorage s.out) (h : EngineMove s t)
    (hp : s.phase = .asm) :
    t.phase = .done ∧ t.out = s.out.writeAll 0 (closedBytes s.value s.neg s.fd.toInt s.ms) ∧ t.kept = s.kept := by
  rw [DataOk, hp] at hs
  cases h with
  | hold hq => rcases hq with hq | hq | hq <;> simp [hq] at hp
  | granted hq | denied hq | indexed hq | indexOverran hq | generated hq | generationOverran hq | truncated hq
  | carried hq | carryOverran hq => simp [hq] at hp
  | assembled _ f htrim => exact ⟨rfl, by rw [State.assembled_out, hs.resultChars_eq htrim]; rfl, rfl⟩
  | assemblyOverran _ f hguard =>
    rcases hguard with ⟨-, hfits⟩ | htrim
    · rw [hs.asmFits hout f] at hfits
      contradiction
    · exact absurd htrim (hs.trim_ne_error f)

end Sys2Proof.Safety

/-! PROOFS. The six steps of a granted request (R131). -/

namespace Sys2Proof.Safety

open Sys2Proof.Machine

/-- The latches hold the fields of a request word (R120). -/
def Latched (r : ReqWord) (s : State) : Prop :=
  s.value = reqValue r ∧ s.neg = reqNeg r ∧ s.fd.toInt = reqDigits r ∧ s.ms = reqMs r

/-- The host is quiet for the next `n` steps. -/
def QuietFor (n : Nat) (s : State) : Prop :=
  ∀ h ∈ s.inputs.take n, h = HostInput.quiet

theorem QuietFor.hostMove_eq {n : Nat} {s : State} (h : QuietFor (n + 1) s) : hostMove s = .quiet := by
  unfold hostMove
  cases hi : s.inputs with
  | nil => rfl
  | cons m rest => exact h m (by simp [hi])

theorem QuietFor.moved {n : Nat} {s : State} (h : QuietFor (n + 1) s) : QuietFor n s.moved := by
  intro m hm
  refine h m ?_
  cases hi : s.inputs with
  | nil => simp [State.moved, hi] at hm
  | cons m' rest => exact List.mem_cons_of_mem _ (by simpa [State.moved, hi] using hm)

/-- No move of the engine's own writes a request latch or takes a move of the host (R42). -/
theorem engineMove_frame {s t : State} (h : EngineMove s t) :
    t.value = s.value ∧ t.neg = s.neg ∧ t.fd = s.fd ∧ t.ms = s.ms ∧ t.inputs = s.inputs := by
  cases h <;> exact ⟨rfl, rfl, rfl, rfl, rfl⟩

theorem Latched.engineMove {r : ReqWord} {s t : State} (hs : Latched r s) (h : EngineMove s t) : Latched r t := by
  obtain ⟨hvalue, hneg, hfd, hms, -⟩ := engineMove_frame h
  rwa [Latched, hvalue, hneg, hfd, hms]

theorem QuietFor.engineMove {n : Nat} {s t : State} (hs : QuietFor n s) (h : EngineMove s t) : QuietFor n t := by
  obtain ⟨-, -, -, -, hinputs⟩ := engineMove_frame h
  rwa [QuietFor, hinputs]

/-- The request `r` stands in phase `p`, the host being quiet for `n` more steps: `out` is the storage the engine holds,
`kept` the host's. -/
structure Underway (r : ReqWord) (n : Nat) (p : Phase) (out : Memory) (kept : List Memory) (s : State) : Prop where
  phase_eq : s.phase = p
  latched : Latched r s
  quiet : QuietFor n s
  control : ControlOk s
  data : DataOk s
  out_eq : s.out = out
  kept_eq : s.kept = kept

theorem step_of_hostMove_quiet {s : State} (h : hostMove s = .quiet) : step s = .next (phaseStep s.moved) := by
  rw [step_eq, h]

/-- START in a phase that accepts it (R120). -/
theorem step_of_hostMove_start {s : State} {r : ReqWord} (h : hostMove s = .start r)
    (hp : s.phase = .idle ∨ s.phase = .done) :
    step s = .next (s.moved.latch (reqValue r) (reqNeg r) (r.extractLsb' 32 16) (reqMs r)) := by
  rw [step_eq, h]
  exact congrArg _ (if_pos ((acceptsStart_iff s).mpr hp))

/-- A granted `ACQ` (R122). -/
theorem phaseStep_of_granted {s : State} (hp : s.phase = .acq) (h : s.answers.head? = some true) :
    phaseStep s = s.acquire.drawn := by
  have hgrant : s.grant = true := by
    obtain ⟨rest, hanswers⟩ := List.head?_eq_some_iff.mp h
    rw [State.grant, hanswers]
  simp [phaseStep, hp, acquireOp, hgrant]

/-- START, accepted, and a granted `ACQ` put a request under way. -/
theorem GrantedRequest.started {s : State} {r : ReqWord} (h : GrantedRequest s r) :
    ∃ t u, step s = .next t ∧ step t = .next u ∧
      Underway r 4 .int (freshStorage s.draws) (hostStores s) u := by
  obtain ⟨⟨hp, hstart, hquiet⟩, hfault, hanswer⟩ := h
  have hmove : hostMove s = .start r := by rw [hostMove, List.headD_eq_head?_getD, hstart]; rfl
  have hquiet : QuietFor 5 (s.moved.latch (reqValue r) (reqNeg r) (r.extractLsb' 32 16) (reqMs r)) := hquiet
  refine ⟨_, _, step_of_hostMove_start hmove hp, step_of_hostMove_quiet hquiet.hostMove_eq, ?_⟩
  refine (phaseStep_of_granted (s := (s.moved.latch _ _ _ _).moved) rfl hanswer) ▸
    { phase_eq := rfl
      latched := ⟨rfl, rfl, rfl, rfl⟩
      quiet := hquiet.moved
      control := controlOk_of_no_fault rfl hfault (by simp)
      data := ⟨rfl, rfl, rfl⟩
      out_eq := rfl
      kept_eq := rfl }

section

variable {r : ReqWord} {n : Nat} {p : Phase} {out : Memory} {kept : List Memory} {s : State}

/-- The host's quiet move is taken. -/
theorem Underway.moved (h : Underway r (n + 1) p out kept s) : Underway r n p out kept s.moved :=
  { h with quiet := h.quiet.moved }

/-- An engine move takes a request under way on to the phase and the storage it leaves. -/
theorem Underway.engineMove {q : Phase} {out' : Memory} {t : State} (h : Underway r n p out kept s)
    (hmove : EngineMove s t) (hphase : t.phase = q) (hout : t.out = out') (hkept : t.kept = s.kept) :
    Underway r n q out' kept t where
  phase_eq := hphase
  latched := h.latched.engineMove hmove
  quiet := h.quiet.engineMove hmove
  control := h.control.engineMove hmove
  data := h.data.engineMove h.control hmove
  out_eq := hout
  kept_eq := hkept.trans h.kept_eq

/-- A stage of a request under way completes and the request stands in the next phase. -/
theorem Underway.step_stage (h : Underway r (n + 1) p out kept s) (hp : p = .int ∨ p = .frac ∨ p = .round) :
    ∃ t, step s = .next t ∧ Underway r n (stageAfter p) out kept t := by
  have hmove := engineMove_phaseStep s.moved
  obtain ⟨hphase, hout, hkept⟩ := engineMove_completes h.moved.data hmove (by rwa [h.moved.phase_eq])
  rw [h.moved.phase_eq] at hphase
  exact ⟨_, step_of_hostMove_quiet h.quiet.hostMove_eq,
    h.moved.engineMove hmove hphase (hout.trans h.moved.out_eq) hkept⟩

/-- `ASM` ends a request under way with its bytes written over the storage held. -/
theorem Underway.step_asm (h : Underway r (n + 1) .asm out kept s) (hfull : FullStorage out) :
    ∃ t, step s = .next t ∧
      Underway r n .done (out.writeAll 0 (closedBytes (reqValue r) (reqNeg r) (reqDigits r) (reqMs r))) kept t := by
  have hmove := engineMove_phaseStep s.moved
  obtain ⟨hphase, hout, hkept⟩ :=
    engineMove_assembles h.moved.data (by rwa [h.moved.out_eq]) hmove h.moved.phase_eq
  obtain ⟨hvalue, hneg, hfd, hms⟩ := h.moved.latched
  rw [h.moved.out_eq, hvalue, hneg, hfd, hms] at hout
  exact ⟨_, step_of_hostMove_quiet h.quiet.hostMove_eq, h.moved.engineMove hmove hphase hout hkept⟩

end

theorem run_succ {s t : State} (h : step s = .next t) (k : Nat) :
    Host.Core.run core (k + 1) s = Host.Core.run core k t := by
  have h : core.step s = .next t := h
  simp only [Host.Core.run, h]

/-- The six steps of a granted request end in `DONE`, with the bytes of the closed form over fresh storage and the
host's storages as they were (R126, R131, R191). -/
theorem GrantedRequest.runs {s : State} {r : ReqWord} (h : GrantedRequest s r) :
    ∃ t, RunsTo s t ∧
      Underway r 0 .done
        ((freshStorage s.draws).writeAll 0 (closedBytes (reqValue r) (reqNeg r) (reqDigits r) (reqMs r)))
        (hostStores s) t := by
  obtain ⟨t1, t2, hstart, hacq, h2⟩ := h.started
  obtain ⟨t3, hidx, h3⟩ := h2.step_stage (.inl rfl)
  obtain ⟨t4, hfdg, h4⟩ := h3.step_stage (.inr (.inl rfl))
  obtain ⟨t5, hrnd, h5⟩ := h4.step_stage (.inr (.inr rfl))
  obtain ⟨t6, hasm, h6⟩ := h5.step_asm (fullStorage_freshStorage _)
  refine ⟨t6, ?_, h6⟩
  rw [RunsTo, run_succ hstart, run_succ hacq, run_succ hidx, run_succ hfdg, run_succ hrnd, run_succ hasm]
  rfl

/-- A request that has ended delivers the closed form of its word (R191). -/
theorem Underway.delivers {r : ReqWord} {n : Nat} {out : Memory} {kept : List Memory} {s : State}
    (h : Underway r n .done out kept s) :
    Delivers s (closedBytes (reqValue r) (reqNeg r) (reqDigits r) (reqMs r)) := by
  obtain ⟨hp, ⟨hvalue, hneg, hfd, hms⟩, -, -, hdata, -, -⟩ := h
  rw [DataOk, hp] at hdata
  obtain ⟨-, -, -, hdel⟩ := hdata
  rwa [hvalue, hneg, hfd, hms] at hdel

/-- The closed form depends on the places asked for by their effective count alone (R100). -/
theorem closedBytes_congr {ms : Bool} {fd fd' : Int} (h : digitCount ms fd' = digitCount ms fd) (value : Word)
    (neg : Bool) : closedBytes value neg fd' ms = closedBytes value neg fd ms := by
  have hplaces : shownAfter fd' ms = shownAfter fd ms := by rw [shownAfter, shownAfter, h]
  have hrounded : roundedValue value fd' ms = roundedValue value fd ms := by rw [roundedValue, roundedValue, h]
  rw [closedBytes, closedBytes, closedString, closedString, hplaces, hrounded]

theorem Delivers.resultBytes_eq {s : State} {bytes : List Byte} (h : Delivers s bytes) :
    resultBytes s = bytes.map some := by
  obtain ⟨-, -, -, -, hbytes⟩ := h
  exact hbytes

end Sys2Proof.Safety

/-! PROOFS. The obligation on requests that agree in their effective digit count. -/

namespace Sys2Proof.Proofs

open Sys2Proof.Machine Sys2Proof.Safety

/-- Settles O44: both runs deliver the closed form, which is the same for both words. -/
theorem equivalentRequestsAgree : Obligations.EquivalentRequestsAgree := by
  intro s s' r r' hs hs' hvalue hneg hms hcount
  obtain ⟨t, hrun, ht⟩ := hs.runs
  obtain ⟨t', hrun', ht'⟩ := hs'.runs
  refine ⟨t, t', hrun, hrun', ?_⟩
  rw [hms] at hcount
  rw [ht.delivers.resultBytes_eq, ht'.delivers.resultBytes_eq, hvalue, hneg, hms, closedBytes_congr hcount]

end Sys2Proof.Proofs

/-! PROOFS. A step by the host's move and the phase it meets: a dropped START, a hold phase, and the table of R127. -/

namespace Sys2Proof.Safety

open Sys2Proof.Machine

/-- A step answers one state. -/
theorem eq_of_step {s t u : State} (hu : step s = .next u) (h : step s = .next t) : t = u :=
  Host.Outcome.next.inj (h.symm.trans hu)

theorem step_of_hostMove_reset {s : State} (h : hostMove s = .reset) : step s = .next s.moved.resetInput := by
  rw [step_eq, h]

/-- START in a phase that does not accept it is dropped (R121). -/
theorem step_of_hostMove_start_dropped {s : State} {r : ReqWord} (h : hostMove s = .start r)
    (hp : ¬(s.phase = .idle ∨ s.phase = .done)) : step s = .next s.moved := by
  rw [step_eq, h]
  exact congrArg _ (if_neg (mt (acceptsStart_iff s).mp hp))

/-- The engine has no step in a hold phase (R123 to R125). -/
theorem phaseStep_of_hold {s : State} (hp : s.phase = .idle ∨ s.phase = .done ∨ s.phase = .faulted) :
    phaseStep s = s := by
  rcases hp with hp | hp | hp <;> simp only [phaseStep, hp]

/-- In a hold phase a step of a quiet host only takes the host's move. -/
theorem step_of_hold {s : State} (hp : s.phase = .idle ∨ s.phase = .done ∨ s.phase = .faulted)
    (h : hostMove s = .quiet) : step s = .next s.moved := by
  rw [step_of_hostMove_quiet h, phaseStep_of_hold (s := s.moved) hp]

/-- Every engine move is in the table of R127. -/
theorem transition_quiet_of_engineMove {s t : State} (h : EngineMove s t) :
    transition .quiet s.phase t.phase = true := by
  cases h with
  | hold hp => rcases hp with hp | hp | hp <;> simp [transition, hp]
  | granted hp | denied hp | indexed hp | indexOverran hp | generated hp | generationOverran hp | truncated hp
  | carried hp | carryOverran hp | assembled hp | assemblyOverran hp => simp [transition, hp]

/-- The table of R127 leads into `IDLE` from another phase under reset only. -/
theorem eq_reset_of_transition_idle {h : HostInput} {p : Phase} (ht : transition h p .idle = true) (hp : p ≠ .idle) :
    h = .reset := by
  cases h with
  | reset => rfl
  | start r =>
    rw [transition] at ht
    split at ht
    · simp at ht
    · exact absurd (of_decide_eq_true ht).symm hp
  | quiet => cases p <;> simp [transition] at ht hp

end Sys2Proof.Safety

/-! PROOFS. The obligations on the sequencer: the table of phases, START, the hold phases and a granted `ACQ`. -/

namespace Sys2Proof.Proofs

open Sys2Proof.Machine Sys2Proof.Safety

/-- Settles O9, by the outcome of the step; whether START is accepted is asked of the phase first. -/
theorem phaseMovesAsTheTableSays : Obligations.PhaseMovesAsTheTableSays := by
  intro s t h
  cases hm : hostMove s with
  | reset =>
    obtain rfl := eq_of_step (step_of_hostMove_reset hm) h
    rfl
  | start r =>
    by_cases hp : s.phase = .idle ∨ s.phase = .done
    · obtain rfl := eq_of_step (step_of_hostMove_start hm hp) h
      simp [transition, hp]
    · obtain rfl := eq_of_step (step_of_hostMove_start_dropped hm hp) h
      simp [transition, hp, State.moved]
  | quiet =>
    obtain rfl := eq_of_step (step_of_hostMove_quiet hm) h
    exact transition_quiet_of_engineMove (s := s.moved) (engineMove_phaseStep s.moved)

/-- Settles O10: `IDLE` is a hold phase, and the table has no way into it but reset. -/
theorem idleIsLeftByStartAndEnteredByReset : Obligations.IdleIsLeftByStartAndEnteredByReset := by
  intro s t h
  refine ⟨fun hp hm => ?_, fun ht hp => ?_⟩
  · exact eq_of_step (step_of_hold (.inl hp) hm) h
  · have htable := phaseMovesAsTheTableSays s t h
    rw [ht] at htable
    exact eq_reset_of_transition_idle htable hp

/-- Settles O12: the phase accepts START, and the latch writes these five fields. -/
theorem startLatchesTheRequest : Obligations.StartLatchesTheRequest := by
  intro s r hp
  rw [exec_decode_request, if_pos ((acceptsStart_iff s).mpr hp)]
  rfl

/-- Settles O13: no other phase accepts START. -/
theorem startIsDroppedWhenBusy : Obligations.StartIsDroppedWhenBusy := by
  intro s value neg fd ms hidle hdone
  have hrefused : ¬acceptsStart s = true := mt (acceptsStart_iff s).mp (not_or.mpr ⟨hidle, hdone⟩)
  rw [exec_format, if_neg hrefused]

/-- Settles O14: the three arms of `exec`, and the step of a quiet host. -/
theorem holdPhasesHold : Obligations.HoldPhasesHold :=
  fun s => ⟨exec_idle s, exec_done s, exec_faulted s, step_of_hold⟩

/-- Settles O16: the listed answer is the grant, and it is the one taken. -/
theorem acqGrantedStartsTheRequest : Obligations.AcqGrantedStartsTheRequest := by
  intro s rest hp hanswers
  have hgrant : s.grant = true := by rw [State.grant, hanswers]
  obtain rfl : s.answers.tail = rest := by rw [hanswers, List.tail_cons]
  rw [exec_acq, if_pos hp, acquireOp, if_pos hgrant]
  rfl

/-- Settles O29: START is dropped in `FAULTED`, and the engine holds. -/
theorem faultedIsLeftByResetOnly : Obligations.FaultedIsLeftByResetOnly := by
  intro s hp hm
  cases hmove : hostMove s with
  | reset => exact absurd hmove hm
  | start r => exact step_of_hostMove_start_dropped hmove (by simp [hp])
  | quiet => exact step_of_hold (.inr (.inr hp)) hmove

end Sys2Proof.Proofs

/-! PROOFS. What a delivered result fixes, and what a granted request leaves of the storages. -/

namespace Sys2Proof.Safety

open Sys2Proof.Machine

theorem Delivers.length_eq {s : State} {bytes : List Byte} (h : Delivers s bytes) :
    s.len.toNat + 1 = bytes.length := by
  obtain ⟨-, -, -, hlen, -⟩ := h
  exact hlen

/-- Two states that deliver the same bytes agree in `LEN`. -/
theorem Delivers.len_eq {s t : State} {bytes : List Byte} (hs : Delivers s bytes) (ht : Delivers t bytes) :
    s.len = t.len := by
  have hlens := hs.length_eq
  have hlent := ht.length_eq
  exact BitVec.eq_of_toNat_eq (by omega)

/-- A result written over fresh storage leaves the provider's own bytes after the terminator (R77, log 3). -/
theorem Delivers.read_after_terminator {s : State} {bytes : List Byte} {d : Nat} (h : Delivers s bytes)
    (hout : s.out = (freshStorage d).writeAll 0 bytes) {off : Nat} (hafter : s.len.toNat < off)
    (hcap : off < Config.outCap) : s.out.read off = some (Config.initByte d off) := by
  have hlen := h.length_eq
  rw [hout, Memory.read_writeAll, if_neg (by omega), read_freshStorage, if_pos hcap]

/-- The storage of a delivered result is the newest of the host's. -/
theorem Delivers.hostStores_eq {s : State} {bytes : List Byte} (h : Delivers s bytes) :
    hostStores s = s.out :: s.kept := by
  obtain ⟨-, howner, -⟩ := h
  exact hostStores_of_host howner

end Sys2Proof.Safety

/-! PROOFS. The obligations on a granted request from START to its result. -/

namespace Sys2Proof.Proofs

open Sys2Proof.Machine Sys2Proof.Safety

/-- Settles O40: the six steps end in `DONE` with the closed form written over fresh storage. -/
theorem grantedRequestDeliversTheClosedForm : Obligations.GrantedRequestDeliversTheClosedForm := by
  intro s r hs
  obtain ⟨t, hrun, ht⟩ := hs.runs
  have hdel := ht.delivers
  exact ⟨t, hrun, hdel, fun _ => hdel.read_after_terminator ht.out_eq, ht.kept_eq ▸ hdel.hostStores_eq⟩

/-- Settles O42: both runs deliver the closed form of the one word. -/
theorem requestsDoNotInteract : Obligations.RequestsDoNotInteract := by
  intro s s' r hs hs'
  obtain ⟨t, hrun, ht⟩ := hs.runs
  obtain ⟨t', hrun', ht'⟩ := hs'.runs
  have hdel := ht.delivers
  have hdel' := ht'.delivers
  exact ⟨t, t', hrun, hrun', hdel.len_eq hdel', hdel.resultBytes_eq.trans hdel'.resultBytes_eq.symm⟩

end Sys2Proof.Proofs

/-! PROOFS. How far `IDX` moves `FIRST`: one slot a digit of the integer part (R150, R151). -/

namespace Sys2Proof.Safety

open Sys2Proof.Machine

/-! The number of digits, along the loop's own division by ten. -/

theorem digitsOfInteger_of_lt_ten {n : Nat} (h : n < 10) : digitsOfInteger n = 1 :=
  if_pos h

theorem digitsOfInteger_eq_div_ten_add_one {n : Nat} (hten : 10 ≤ n) (hn : n < 100000) :
    digitsOfInteger n = digitsOfInteger (n / 10) + 1 := by
  simp only [digitsOfInteger]
  split_ifs <;> omega

theorem digitsOfInteger_le_five (n : Nat) : digitsOfInteger n ≤ 5 := by
  simp only [digitsOfInteger]
  split_ifs <;> omega

theorem lt_ten_pow_digitsOfInteger {n : Nat} (hn : n < 100000) : n < 10 ^ digitsOfInteger n := by
  simp only [digitsOfInteger]
  split_ifs <;> omega

theorem integerPart_lt (value : Word) : (integerPart value).toNat < 100000 :=
  (integerPart value).isLt.trans (by decide)

/-! The run of R150. -/

/-- `IDX`'s loop moves `FIRST` by one slot a digit. -/
theorem idxLoop_first {first n : Nat} {db db' : DigitBuffer} {f : Nat} (hn : n < 100000)
    (h : idxLoop first n db = .ok (f, db')) : f + digitsOfInteger n = first := by
  induction first generalizing n db with
  | zero => simp [idxLoop] at h
  | succ first ih =>
    simp only [idxLoop] at h
    split at h
    · split at h
      · simp only [Except.ok.injEq, Prod.mk.injEq] at h
        rw [digitsOfInteger_of_lt_ten (by omega), h.1]
      · have hrest := ih (by omega) h
        rw [digitsOfInteger_eq_div_ten_add_one (by omega) hn]
        omega
    · simp at h

theorem idxRun_zero_succ (f : Nat) (db : DigitBuffer) : idxRun 0 (f + 1) db = .ok (f, db) := rfl

theorem idxRun_of_ne_zero {n : Nat} (hn : n ≠ 0) (first : Nat) (db : DigitBuffer) :
    idxRun n first db = idxLoop first n db :=
  if_neg hn

/-- A zero integer part is not written (R152 (a)). -/
theorem idxRun_zero_db {first f : Nat} {db db' : DigitBuffer} (h : idxRun 0 first db = .ok (f, db')) : db' = db := by
  cases first with
  | zero => simp [idxRun] at h
  | succ first =>
    rw [idxRun_zero_succ, Except.ok.injEq, Prod.mk.injEq] at h
    exact h.2.symm

/-- `IDX` leaves every slot alone that it did not move over. -/
theorem idxRun_frame {n first f : Nat} {db db' : DigitBuffer} (h : idxRun n first db = .ok (f, db')) {i : Nat}
    (hi : i < f ∨ first ≤ i) : slot db' i = slot db i := by
  by_cases hn : n = 0
  · subst hn
    rw [idxRun_zero_db h]
  · rw [idxRun_of_ne_zero hn] at h
    obtain ⟨-, -, hframe⟩ := idxLoop_ok h
    exact hframe i hi

/-- `IDX` completes where `FIRST` has room for the digits and lies in the buffer, and moves `FIRST` by their number. -/
theorem idxRun_completes {n first : Nat} (db : DigitBuffer) (hn : n < 100000) (hroom : digitsOfInteger n ≤ first)
    (hcap : first ≤ 12) : ∃ db', idxRun n first db = .ok (first - digitsOfInteger n, db') := by
  by_cases h0 : n = 0
  · subst h0
    obtain ⟨f, rfl⟩ := Nat.exists_eq_add_of_le' hroom
    exact ⟨db, idxRun_zero_succ f db⟩
  · have hfits : n < 10 ^ first :=
      (lt_ten_pow_digitsOfInteger hn).trans_le (Nat.pow_le_pow_right (by decide) hroom)
    obtain ⟨f, db', hrun⟩ := idxLoop_completes db h0 hfits hcap
    have hfirst := idxLoop_first hn hrun
    exact ⟨db', by rw [idxRun_of_ne_zero h0, hrun, ← hfirst, Nat.add_sub_cancel]⟩

/-- `IDX` in its phase, where its run completes. -/
theorem exec_idx_of_idxRun {s : State} {f : Nat} {db : DigitBuffer} (hp : s.phase = .int)
    (hrun : idxRun (integerPart s.value).toNat s.firstCur.toNat s.db = .ok (f, db)) :
    exec .idx s = .next { s with firstCur := BitVec.ofNat 4 f, db := db, phase := .frac } := by
  rw [exec_idx, if_pos hp, integerDigits, hrun]

end Sys2Proof.Safety

/-! PROOFS. The obligations on `IDX`. -/

namespace Sys2Proof.Proofs

open Sys2Proof.Machine Sys2Proof.Safety

/-- Settles O19: the run completes with `FIRST` moved by the number of digits; a number that is not 0 goes through the
loop. -/
theorem idxStoresTheDigitsLeftOfFirst : Obligations.IdxStoresTheDigitsLeftOfFirst := by
  intro s hp hroom hcap
  obtain ⟨db', hrun⟩ := idxRun_completes s.db (integerPart_lt s.value) hroom hcap
  refine ⟨db', exec_idx_of_idxRun hp hrun, fun h0 => ?_, fun h0 => ?_, fun i => idxRun_frame hrun⟩
  · rw [h0] at hrun
    exact idxRun_zero_db hrun
  · rw [idxRun_of_ne_zero h0] at hrun
    obtain ⟨hval, hdig, -⟩ := idxLoop_value hrun
    rw [Nat.sub_sub_self hroom] at hval
    exact ⟨hval, hdig⟩

/-- Settles O20: the window and the number are those of `AfterIdx`; the first digit written is the leading one. -/
theorem idxRightAlignsTheIntegerPart : Obligations.IdxRightAlignsTheIntegerPart := by
  intro s hp hs
  have hk := digitsOfInteger_le_five (integerPart s.value).toNat
  have ⟨_, hfirst, _⟩ := hs
  have hfive : s.firstCur.toNat = 5 := congrArg BitVec.toNat hfirst
  obtain ⟨db', hrun⟩ := idxRun_completes s.db (integerPart_lt s.value) (hfive ▸ hk) (by omega)
  obtain ⟨⟨-, hbelow, -⟩, hdig, hfrom, hend, hval⟩ := hs.indexed hrun
  have hcur := toNat_ofNat4 (show s.firstCur.toNat - digitsOfInteger (integerPart s.value).toNat < 16 by omega)
  refine ⟨_, exec_idx_of_idxRun hp hrun, rfl, by rw [hcur, hfive], hend, hval, hdig, hbelow, hfrom, fun h0 => ?_⟩
  rw [idxRun_of_ne_zero h0] at hrun
  obtain ⟨-, -, hlead⟩ := idxLoop_value hrun
  rw [slot_ne_zero_iff, hcur]
  exact hlead h0

end Sys2Proof.Proofs

/-! PROOFS. What `FDG` writes besides the places: `WORK`'s upper half and `DPP`; and the digit count as a clamp. -/

namespace Sys2Proof.Safety

open Sys2Proof.Machine

/-! The digit count (R160): `fd` clamped to the range its mode allows. -/

theorem digitCount_false (fd : Int) : (digitCount false fd : Int) = max 0 (min fd 6) := by
  simp only [digitCount, Config.maxDec, Bool.false_eq_true, if_false]
  split <;> split <;> omega

theorem digitCount_true (fd : Int) : (digitCount true fd : Int) = max 3 (min (fd + 3) 6) := by
  simp only [digitCount, Config.maxDec, Config.msShift, if_true]
  split <;> split <;> omega

/-! The run of R162. -/

/-- `FDG`'s loop leaves the last digit it stored in `WORK[31:16]` (R163). -/
theorem fdgLoop_work_high {k : Nat} {g g' : Generation} (h : fdgLoop (k + 1) g = .ok g') :
    g'.work.toNat / 65536 = (slot g'.db (g.endAt + k)).toNat := by
  induction k generalizing g with
  | zero =>
    simp only [fdgLoop] at h
    split at h
    · simp at h
    · simp only [Except.ok.injEq] at h
      subst h
      dsimp only
      rw [Nat.add_zero, slot_setSlot_same _ (by omega), toNat_workDigit_workStep, toNat_workStep]
  | succ k ih =>
    rw [fdgLoop] at h
    split at h
    · simp at h
    · rw [ih h, Nat.add_right_comm, Nat.add_assoc]

/-- `FDG` in its phase, where its loop completes. -/
theorem exec_fdg_of_fdgLoop {s : State} {g : Generation} (hp : s.phase = .frac)
    (hrun : fdgLoop (digitCount s.ms s.fd.toInt) (generationStart s) = .ok g) :
    exec .fdg s = .next { s.generated g with phase := .round } := by
  rw [exec_fdg, if_pos hp]
  rcases fractionDigits_cases s with ⟨g', hrun', h⟩ | ⟨g', hrun', -⟩
  · rw [h, Except.ok.inj (hrun.symm.trans hrun')]
  · simp [hrun] at hrun'

theorem pointPosition_code (ms : Bool) : BitVec.ofNat 4 (pointPosition ms) = if ms then 8#4 else 5#4 := by
  cases ms <;> rfl

end Sys2Proof.Safety

/-! PROOFS. The obligations on `FDG`. -/

namespace Sys2Proof.Proofs

open Sys2Proof.Machine Sys2Proof.Safety

/-- Settles O21: both columns of the table are clamps, of `fd` to 0..6 and of `fd + 3` to 3..6. -/
theorem digitCountByTheTable : Obligations.DigitCountByTheTable := by
  intro fd
  have hplain := digitCount_false fd
  have hms := digitCount_true fd
  have hone := digitCount_true 1
  have htwo := digitCount_true 2
  refine ⟨?_, ?_, ?_, ?_, ?_, ?_, ?_⟩ <;> omega

/-- Settles O22: the loop completes where it has room, appends the places and keeps the remainder; with no digit to
store it leaves `WORK` as loaded, and otherwise the last digit stands in its upper half. -/
theorem fdgAppendsTheDecimalPlaces : Obligations.FdgAppendsTheDecimalPlaces := by
  intro s hp hroom
  obtain ⟨g, hrun⟩ := fdgLoop_completes (g := generationStart s) hroom
  have hexec := exec_fdg_of_fdgLoop hp hrun
  obtain ⟨hend, -, hframe⟩ := fdgLoop_ok hrun
  obtain ⟨hplaces, hrem, hdigits⟩ := fdgLoop_value hrun
  have hwork := toNat_generationStart_work s
  rw [hwork, Nat.mod_eq_of_lt (fractionPart s.value).isLt] at hplaces hrem
  rw [hend] at hframe hdigits
  refine ⟨g.db, g.work, ?_, hplaces, hrem, hframe, hdigits, fun h0 => ?_, fun h1 => ?_⟩
  · rw [hexec, State.generated, pointPosition_code, hend]
    rfl
  · rw [h0] at hrun
    obtain rfl : generationStart s = g := Except.ok.inj hrun
    exact hwork
  · obtain ⟨k, hk⟩ := Nat.exists_eq_add_of_le' h1
    rw [hk] at hrun
    rw [hk]
    exact fdgLoop_work_high hrun

end Sys2Proof.Proofs

/-! PROOFS. Where `RND`'s carry stops, with digits left of `END` and anything from `END` on (R171, R172). -/

namespace Sys2Proof.Safety

open Sys2Proof.Machine

/-- Slots of 9 make the number before the next power of ten. -/
theorem slotsFrom_nines {db : DigitBuffer} {lo n : Nat} (h : ∀ i, lo ≤ i → i < lo + n → slot db i = 9#4) :
    slotsFrom db lo n + 1 = 10 ^ n := by
  induction n with
  | zero => rfl
  | succ n ih =>
    have hinit := ih fun i h1 h2 => h i h1 (by omega)
    have hlast : (slot db (lo + n)).toNat = 9 := congrArg BitVec.toNat (h (lo + n) (by omega) (by omega))
    rw [slotsFrom_succ, Nat.pow_succ, hlast]
    omega

/-- A number with room to grow has a digit that is not 9. -/
theorem exists_slot_ne_nine {db : DigitBuffer} {n : Nat} (h : slotsValue db n + 1 < 10 ^ n) :
    ∃ j, j < n ∧ slot db j ≠ 9#4 := by
  by_contra! hnines
  have := slotsFrom_nines (db := db) (lo := 0) (n := n) fun i _ hi => hnines i (by omega)
  rw [slotsValue] at h
  omega

/-- A digit that is not 9 absorbs the carry, if no digit right of it does. -/
theorem carryLoop_completes {p j : Nat} {db : DigitBuffer} (hd : ∀ i, i ≤ p → (slot db i).toNat ≤ 9) (hj : j ≤ p)
    (hne : slot db j ≠ 9#4) : ∃ q db', carryLoop p db = .ok (q, db') := by
  rcases hrun : carryLoop p db with e | ⟨q, db'⟩
  · exact absurd (carryLoop_error hd hrun j hj) hne
  · exact ⟨q, db', rfl⟩

/-- The carry stops at the first digit from the right that is not 9. -/
theorem carryLoop_stop {p q : Nat} {db db' : DigitBuffer} (hp : p < 12) (hd : ∀ i, i ≤ p → (slot db i).toNat ≤ 9)
    (h : carryLoop p db = .ok (q, db')) :
    slot db q ≠ 9#4 ∧ ∀ j, j ≤ p → slot db j ≠ 9#4 → j ≤ q := by
  obtain ⟨hq, -⟩ := carryLoop_ok h
  obtain ⟨-, hdig, hraised, hpassed⟩ := carryLoop_value hp hd h
  refine ⟨fun hnine => ?_, fun j hj hne => ?_⟩
  · have hafter := hdig q hq
    rw [hraised, hnine] at hafter
    exact absurd hafter (by decide)
  · by_contra hlt
    obtain ⟨hnine, -⟩ := hpassed j (by omega) hj
    exact hne hnine

/-- `FIRST` moves left or stays (R172). -/
theorem toNat_carriedFirst_le (p : Nat) (first : Cursor) :
    (if p < first.toNat then BitVec.ofNat 4 p else first).toNat ≤ first.toNat := by
  split
  · rw [BitVec.toNat_ofNat]
    exact (Nat.mod_le p _).trans (by omega)
  · exact le_refl _

/-- `RND` in its phase, below one half (R170). -/
theorem exec_rnd_of_lt_half {s : State} (hp : s.phase = .round) (hbelow : s.work.toNat % 65536 < 32768) :
    exec .rnd s = .next { s with phase := .asm } := by
  have hr : ¬ roundUp s.work = true := by rw [roundUp_iff]; omega
  rw [exec_rnd, if_pos hp, roundDigits, if_neg hr]

/-- `RND` in its phase, from one half on, where the carry stops. -/
theorem exec_rnd_of_carryLoop {s : State} {m p : Nat} {db : DigitBuffer} (hp : s.phase = .round)
    (hhalf : 32768 ≤ s.work.toNat % 65536) (hend : s.endCur.toNat = m + 1) (hm : m < 12)
    (hrun : carryLoop m s.db = .ok (p, db)) :
    exec .rnd s = .next
      { s with
        db := db
        firstCur := if p < s.firstCur.toNat then BitVec.ofNat 4 p else s.firstCur
        phase := .asm } := by
  have hcarry : carryRun s.endCur.toNat s.db = .ok (p, db) := by
    rw [carryRun, dbCap_eq, hend, if_pos (by omega), Nat.add_sub_cancel, hrun]
  rw [exec_rnd, if_pos hp, roundDigits, if_pos ((roundUp_iff _).mpr hhalf), hcarry]

end Sys2Proof.Safety

/-! PROOFS. The obligations on `RND`. -/

namespace Sys2Proof.Proofs

open Sys2Proof.Machine Sys2Proof.Safety

/-- Settles O23: a number with room to grow has a digit that absorbs the carry, and the chain up to there is the decimal
increment. -/
theorem rndAddsOneFromHalfUp : Obligations.RndAddsOneFromHalfUp := by
  refine fun s hp => ⟨exec_rnd_of_lt_half hp, fun hhalf hpos hcap hdig hroom => ?_⟩
  obtain ⟨m, hend⟩ := Nat.exists_eq_add_of_le' hpos
  rw [hend] at hcap hdig hroom ⊢
  have hdig' : ∀ i, i ≤ m → (slot s.db i).toNat ≤ 9 := fun i hi => hdig i (by omega)
  obtain ⟨j, hj, hne⟩ := exists_slot_ne_nine hroom
  obtain ⟨p, db', hrun⟩ := carryLoop_completes hdig' (by omega) hne
  obtain ⟨-, hframe⟩ := carryLoop_ok hrun
  obtain ⟨hval, hdigits, -, -⟩ := carryLoop_value hcap hdig' hrun
  exact ⟨db', _, exec_rnd_of_carryLoop hp hhalf hend hcap hrun, hval, fun i hi => hdigits i (by omega),
    fun i hi => hframe i (.inr hi), toNat_carriedFirst_le p s.firstCur⟩

/-- Settles O24: over a window of nines the carry stops at the zero left of `FIRST`; a digit of the window that is not 9
stops it at or right of `FIRST`. -/
theorem rndGrowsTheWindowByOneSlot : Obligations.RndGrowsTheWindowByOneSlot := by
  intro s hp hhalf hcap hwindow hdig hbelow
  obtain ⟨m, hend⟩ : ∃ m, s.endCur.toNat = m + 1 := Nat.exists_eq_add_of_le' (by omega)
  rw [hend] at hcap hwindow hdig ⊢
  have hdig' : ∀ i, i ≤ m → (slot s.db i).toNat ≤ 9 := fun i hi => hdig i (by omega)
  refine ⟨fun hnines hfirst => ?_, fun ⟨j, hj, hjend, hne⟩ => ?_⟩
  · have hzero : slot s.db (s.firstCur.toNat - 1) = 0#4 := hbelow _ (by omega)
    have hne : slot s.db (s.firstCur.toNat - 1) ≠ 9#4 := by rw [hzero]; decide
    obtain ⟨p, db', hrun⟩ := carryLoop_completes hdig' (by omega) hne
    obtain ⟨hpm, hframe⟩ := carryLoop_ok hrun
    obtain ⟨hpne, hright⟩ := carryLoop_stop hcap hdig' hrun
    obtain ⟨-, -, hraised, hpassed⟩ := carryLoop_value hcap hdig' hrun
    have hleft : p < s.firstCur.toNat := by
      by_contra hin
      exact hpne (hnines p (by omega) (by omega))
    obtain rfl : p = s.firstCur.toNat - 1 := by
      have := hright _ (by omega) hne
      omega
    refine ⟨db', ?_, ?_, fun i hi => ?_, fun i hi hiend => ?_⟩
    · rw [exec_rnd_of_carryLoop hp hhalf hend hcap hrun, if_pos hleft]
    · rw [hzero] at hraised
      exact BitVec.eq_of_toNat_eq hraised
    · rw [hframe i (.inl hi), hbelow i (by omega)]
    · obtain ⟨-, hcleared⟩ := hpassed i (by omega) (by omega)
      exact hcleared
  · obtain ⟨p, db', hrun⟩ := carryLoop_completes hdig' (by omega) hne
    obtain ⟨-, hright⟩ := carryLoop_stop hcap hdig' hrun
    have hin : ¬ p < s.firstCur.toNat := by
      have := hright j (by omega) hne
      omega
    exact ⟨db', by rw [exec_rnd_of_carryLoop hp hhalf hend hcap hrun, if_neg hin]⟩

end Sys2Proof.Proofs

/-! PROOFS. Where trimming stops, and `ASM` from any window with the point inside it or at its right edge (R180, R182). -/

namespace Sys2Proof.Safety

open Sys2Proof.Machine

/-- Trimming stops at the first digit that is not zero, or right before the point (R180). -/
theorem trim_eq_ok {db : DigitBuffer} {first f dpp : Nat} (hcap : dpp ≤ 12) (hle : first ≤ f) (hlt : f < dpp)
    (hzero : ∀ i, first ≤ i → i < f → slot db i = 0#4) (hstop : f + 1 = dpp ∨ slot db f ≠ 0#4) :
    trim db first dpp = .ok f := by
  obtain ⟨g, hrun⟩ := trimLoop_completes db (k := dpp - 1 - first) (first := first) (by omega)
  obtain ⟨hge, hlimit, hpassed, hend⟩ := trimLoop_ok hrun
  suffices g = f by rw [trim, hrun, this]
  rcases Nat.lt_trichotomy g f with hgf | hgf | hgf
  · exact absurd (hzero g hge hgf) (hend.resolve_left (by omega))
  · exact hgf
  · exact absurd (hpassed f hle hgf) (hstop.resolve_left (by omega))

/-- The guard of `ASM` asks for an offset for every character of the window and for the terminator (R182, log 20). -/
theorem asmFits_iff {s : State} {f : Nat} (hf : f ≤ s.dpp.toNat) (hdpp : s.dpp.toNat ≤ s.endCur.toNat)
    (hcap : s.endCur.toNat ≤ 12) :
    asmFits s f = true ↔ ∀ off, off ≤ (windowText s.neg s.db f s.dpp.toNat s.endCur.toNat).length →
      (s.out.read off).isSome = true := by
  rw [asmFits, dbCap_eq, decide_eq_true hcap, Bool.and_true, ← length_resultChars s.neg s.db hf,
    resultChars_eq_windowText s.neg s.db hf hdpp, Memory.covers_iff]
  simp only [Nat.lt_succ_iff]

/-- `ASM` in its phase, where trimming stops and the result fits. -/
theorem exec_asm_of_fits {s : State} {f : Nat} (hp : s.phase = .asm)
    (htrim : trim s.db s.firstCur.toNat s.dpp.toNat = .ok f) (hfits : asmFits s f = true) :
    exec .asm s = .next ({ s with firstCur := BitVec.ofNat 4 f }.assembled
      (resultChars s.neg s.db f s.endCur.toNat s.dpp.toNat)) := by
  simp only [exec_asm, if_pos hp, assemble, htrim, if_pos hfits]

/-- `ASM` in its phase, where trimming stops and the result does not fit. -/
theorem exec_asm_of_not_fits {s : State} {f : Nat} (hp : s.phase = .asm)
    (htrim : trim s.db s.firstCur.toNat s.dpp.toNat = .ok f) (hfits : ¬ asmFits s f = true) :
    exec .asm s = .next ({ s with firstCur := BitVec.ofNat 4 f }.raise .bufferOverrun) := by
  simp only [exec_asm, if_pos hp, assemble, htrim, if_neg hfits]

/-- `BufferOverrun` taken after `FIRST` has moved (R212, R216). -/
theorem overruns_raise_firstCur (s : State) (c : Cursor) :
    Overruns s ({ s with firstCur := c }.raise .bufferOverrun) :=
  ⟨rfl, rfl, rfl, rfl, rfl, rfl, rfl, rfl, rfl, rfl, rfl⟩

/-- A text and its terminator written from offset 0: the text, the terminator, and every later byte as before. -/
theorem read_writeAll_terminated (m : Memory) (cs : List Byte) :
    (∀ off, off < cs.length → (m.writeAll 0 (cs ++ [charNul])).read off = cs[off]?) ∧
      (m.writeAll 0 (cs ++ [charNul])).read cs.length = some charNul ∧
      ∀ off, cs.length < off → (m.writeAll 0 (cs ++ [charNul])).read off = m.read off := by
  have hlen : (cs ++ [charNul]).length = cs.length + 1 := by simp
  simp only [Memory.read_writeAll, Nat.sub_zero, hlen]
  refine ⟨fun off h => ?_, ?_, fun off h => ?_⟩
  · rw [if_pos (by omega), List.getElem?_append_left h]
  · rw [if_pos (by omega), List.getElem?_concat_length]
  · rw [if_neg (by omega)]

end Sys2Proof.Safety

/-! PROOFS. The obligation on `ASM`. -/

namespace Sys2Proof.Proofs

open Sys2Proof.Machine Sys2Proof.Safety

/-- Settles O25: trimming stops at `f`, and the guard tells the storage with room for the window from the one without. -/
theorem asmWritesTheWindowOrOverruns : Obligations.AsmWritesTheWindowOrOverruns := by
  intro s f hp hdpp hcap hle hlt hzero hstop
  have htrim := trim_eq_ok (by omega) hle hlt hzero hstop
  have hguard := asmFits_iff (Nat.le_of_lt hlt) hdpp hcap
  refine ⟨fun hroom => ⟨_, ?_, read_writeAll_terminated s.out _⟩, fun ⟨off, hoff, hmissing⟩ => ?_⟩
  · rw [exec_asm_of_fits hp htrim (hguard.mpr hroom), resultChars_eq_windowText _ _ (Nat.le_of_lt hlt) hdpp]
    rfl
  · have hfits : ¬ asmFits s f = true := fun h => by simpa [hmissing] using hguard.mp h off hoff
    exact ⟨_, exec_asm_of_not_fits hp htrim hfits, overruns_raise_firstCur s _, rfl, rfl⟩

end Sys2Proof.Proofs

/-! PROOFS. The shape of a numeral and of the places after the point (R183, R184). -/

namespace Sys2Proof.Safety

open Sys2Proof.Machine

theorem toNat_digitByte {d : Nat} (h : d < 10) : (digitByte d).toNat = 0x30 + d := by
  rw [digitByte, BitVec.toNat_ofNat]
  omega

theorem isDigit_digitByte {d : Nat} (h : d < 10) : IsDigit (digitByte d) := by
  rw [IsDigit, toNat_digitByte h]
  omega

theorem digitByte_ne_zero {d : Nat} (hpos : d ≠ 0) (h : d < 10) : digitByte d ≠ 0x30#8 := by
  intro heq
  have hval := congrArg BitVec.toNat heq
  rw [toNat_digitByte h, BitVec.toNat_ofNat] at hval
  omega

@[simp] theorem length_padded (k b : Nat) : (padded k b).length = k := by
  induction k generalizing b with
  | zero => rfl
  | succ k ih => simp [padded, ih]

theorem isDigit_of_mem_padded (k b : Nat) : ∀ c ∈ padded k b, IsDigit c := by
  induction k generalizing b with
  | zero => exact List.forall_mem_nil _
  | succ k ih =>
    exact List.forall_mem_append.mpr
      ⟨ih _, List.forall_mem_singleton.mpr (isDigit_digitByte (Nat.mod_lt b (by decide)))⟩

theorem numeralIn_of_lt_ten (fuel : Nat) {n : Nat} (h : n < 10) : numeralIn (fuel + 1) n = [digitByte n] :=
  if_pos h

theorem numeralIn_of_ten_le (fuel : Nat) {n : Nat} (h : 10 ≤ n) :
    numeralIn (fuel + 1) n = numeralIn fuel (n / 10) ++ [digitByte (n % 10)] :=
  if_neg (by omega)

theorem length_numeralIn_le (fuel n : Nat) : (numeralIn fuel n).length ≤ fuel := by
  induction fuel generalizing n with
  | zero => exact le_refl _
  | succ fuel ih =>
    rcases Nat.lt_or_ge n 10 with hn | hn
    · simp [numeralIn_of_lt_ten fuel hn]
    · simpa [numeralIn_of_ten_le fuel hn] using ih (n / 10)

theorem length_numeralIn_pos (fuel n : Nat) : 1 ≤ (numeralIn (fuel + 1) n).length := by
  rcases Nat.lt_or_ge n 10 with hn | hn
  · simp [numeralIn_of_lt_ten fuel hn]
  · simp [numeralIn_of_ten_le fuel hn]

theorem isDigit_of_mem_numeralIn (fuel n : Nat) : ∀ c ∈ numeralIn fuel n, IsDigit c := by
  induction fuel generalizing n with
  | zero => exact List.forall_mem_nil _
  | succ fuel ih =>
    rcases Nat.lt_or_ge n 10 with hn | hn
    · rw [numeralIn_of_lt_ten fuel hn]
      exact List.forall_mem_singleton.mpr (isDigit_digitByte hn)
    · rw [numeralIn_of_ten_le fuel hn]
      exact List.forall_mem_append.mpr
        ⟨ih _, List.forall_mem_singleton.mpr (isDigit_digitByte (Nat.mod_lt n (by decide)))⟩

/-- The numeral of a number that is not 0 starts with a digit that is not 0, where its digits suffice. -/
theorem numeralIn_eq_cons {fuel n : Nat} (hpos : n ≠ 0) (h : n < 10 ^ fuel) :
    ∃ d rest, numeralIn fuel n = digitByte d :: rest ∧ d ≠ 0 ∧ d < 10 := by
  induction fuel generalizing n with
  | zero => simp at h; omega
  | succ fuel ih =>
    rcases Nat.lt_or_ge n 10 with hn | hn
    · exact ⟨n, [], numeralIn_of_lt_ten fuel hn, hpos, hn⟩
    · obtain ⟨d, rest, heq, hd⟩ := ih (n := n / 10) (by omega) (by rw [Nat.pow_succ] at h; omega)
      exact ⟨d, _, by rw [numeralIn_of_ten_le fuel hn, heq, List.cons_append], hd⟩

/-- No numeral has a superfluous leading zero (R183). -/
theorem numeral_leading {n : Nat} (h : n < 10 ^ 8) : numeral n = [0x30#8] ∨ (numeral n).head? ≠ some 0x30#8 := by
  rcases Nat.eq_zero_or_pos n with rfl | hpos
  · exact .inl rfl
  · obtain ⟨d, rest, heq, hd0, hd⟩ := numeralIn_eq_cons (Nat.ne_of_gt hpos) h
    rw [numeral, heq, List.head?_cons, ne_eq, Option.some_inj]
    exact .inr (digitByte_ne_zero hd0 hd)

/-- Before the point stand at most the five digits of the integer part and three of the fraction (R43, R191). -/
theorem roundedValue_div_lt (value : Word) (fd : Int) (ms : Bool) :
    roundedValue value fd ms / 10 ^ shownAfter fd ms < 10 ^ 8 := by
  have hvalue := value.isLt
  have hcount : digitCount ms fd ≤ shownAfter fd ms + 3 := by
    have := shownBefore_le ms
    rw [shownAfter]
    omega
  have hscaled : value.toNat * 10 ^ digitCount ms fd ≤ 2 ^ 32 * 10 ^ (shownAfter fd ms + 3) :=
    Nat.mul_le_mul (Nat.le_of_lt hvalue) (Nat.pow_le_pow_right (by decide) hcount)
  have hplaces : 0 < 10 ^ shownAfter fd ms := by positivity
  rw [Nat.pow_add 10] at hscaled
  rw [Nat.div_lt_iff_lt_mul hplaces, roundedValue]
  omega

/-- The closed form with the places named: the point is left out exactly where there are none. -/
theorem closedBytes_eq (value : Word) (neg : Bool) (fd : Int) (ms : Bool) {whole places : List Byte}
    (hwhole : whole = numeral (roundedValue value fd ms / 10 ^ shownAfter fd ms))
    (hplaces : places = padded (shownAfter fd ms) (roundedValue value fd ms % 10 ^ shownAfter fd ms)) :
    closedBytes value neg fd ms =
      (if neg then [0x2D#8] else []) ++ whole ++ (if places = [] then [] else 0x2E#8 :: places) ++ [0x00#8] := by
  have hnone : places = [] ↔ ¬ shownAfter fd ms > 0 := by
    rw [hplaces, ← List.length_eq_zero_iff, length_padded]
    omega
  simp only [closedBytes, closedString, hnone, ite_not, ← hwhole, ← hplaces]

/-- `FDG`'s count stands in `NDIG` where a request under way has ended (R160). -/
theorem Underway.ndig_eq {r : ReqWord} {n : Nat} {out : Memory} {kept : List Memory} {s : State}
    (h : Underway r n .done out kept s) : s.ndig.toNat = digitCount (reqMs r) (reqDigits r) := by
  obtain ⟨hp, ⟨-, -, hfd, hms⟩, -, -, hdata, -, -⟩ := h
  rw [DataOk, hp] at hdata
  obtain ⟨⟨hndig, -, -⟩, -⟩ := hdata
  rwa [requestedDigits, hfd, hms] at hndig

end Sys2Proof.Safety

/-! PROOFS. The obligation on the shape of every result. -/

namespace Sys2Proof.Proofs

open Sys2Proof.Machine Sys2Proof.Safety

/-- Settles O47: the parts are the numeral and the padded places of the closed form. -/
theorem resultHasTheGrammarsShape : Obligations.ResultHasTheGrammarsShape := by
  intro s r hs
  obtain ⟨t, hrun, ht⟩ := hs.runs
  have hndig := ht.ndig_eq
  refine ⟨t, _, _, hrun, closedBytes_eq _ _ _ _ rfl rfl ▸ ht.delivers, length_numeralIn_pos _ _,
    length_numeralIn_le _ _, isDigit_of_mem_numeralIn _ _, numeral_leading (roundedValue_div_lt _ _ _),
    isDigit_of_mem_padded _ _, ?_, hndig, hndig ▸ digitCount_le _ _⟩
  rw [length_padded, hndig, shownAfter, shownBefore]
  split <;> rfl

end Sys2Proof.Proofs

/-! PROOFS. The safety of the guards (R200), one step at a time. -/

namespace Sys2Proof.Safety

open Sys2Proof.Machine

/-- Under the invariant no engine move takes `BufferOverrun`: the stages complete, and the one exception left is the
provider's denial. -/
theorem Inv.engineMove_fault_ne_overrun {s t : State} (hs : Inv s) (h : EngineMove s t) (hf : s.fault ≠ .overrun) :
    t.fault ≠ .overrun := by
  obtain ⟨-, ⟨-, hfull, -⟩, hctl, hdata⟩ := hs
  have hmove := h
  cases h with
  | hold | granted | indexed | generated | truncated | carried | assembled => exact hf
  | denied => simp [exceptionCode]
  | indexOverran hp | generationOverran hp | carryOverran hp =>
    obtain ⟨hphase, -, -⟩ := engineMove_completes hdata hmove (by simp [hp])
    simp [hp, stageAfter] at hphase
  | assemblyOverran hp =>
    have howner : s.owner ≠ .none := by simp [hctl.owner_eq_engine, hp]
    obtain ⟨hphase, -, -⟩ := engineMove_assembles hdata (hfull howner) hmove hp
    simp at hphase

end Sys2Proof.Safety

/-! PROOFS. The obligation on the guards. -/

namespace Sys2Proof.Proofs

open Sys2Proof.Machine Sys2Proof.Safety

/-- Settles O37: reset clears `FAULT`, START leaves it, and no engine move overruns under the invariant. -/
theorem noGuardFires : Obligations.NoGuardFires := by
  intro s t hs h hf
  cases stepMove_of_step h with
  | reset => simp
  | started | dropped => exact hf
  | engine _ _ hmove => exact Inv.engineMove_fault_ne_overrun (s := s.moved) hs hmove hf

end Sys2Proof.Proofs

/-! PROOFS. The closed form in its corner cases (R193, R195, R196) and its length (R199). -/

namespace Sys2Proof.Safety

open Sys2Proof.Machine

/-- The sign stands before everything else and changes nothing after it (R181, R196). -/
theorem closedBytes_true (value : Word) (fd : Int) (ms : Bool) :
    closedBytes value true fd ms = 0x2D#8 :: closedBytes value false fd ms := rfl

/-! Zero places (R193). -/

theorem digitCount_false_of_nonpos {fd : Int} (h : fd ≤ 0) : digitCount false fd = 0 := by
  have := digitCount_false fd
  omega

/-- At zero places the rounded value is the integer part, or the next integer from one half on. -/
theorem roundedValue_of_digitCount_eq_zero {fd : Int} {ms : Bool} (h : digitCount ms fd = 0) (value : Word) :
    roundedValue value fd ms =
      if (fractionPart value).toNat < 0x8000 then (integerPart value).toNat else (integerPart value).toNat + 1 := by
  have hfrac := (fractionPart value).isLt
  rw [roundedValue, h, toNat_eq_integer_fraction]
  split <;> omega

/-- Where no place is shown the closed form is the sign and the numeral of the rounded value. -/
theorem closedBytes_of_digitCount_eq_zero {fd : Int} {ms : Bool} (h : digitCount ms fd = 0) (value : Word)
    (neg : Bool) :
    closedBytes value neg fd ms =
      (if neg then [0x2D#8] else []) ++ numeral (roundedValue value fd ms) ++ [0x00#8] := by
  have hplaces : shownAfter fd ms = 0 := by rw [shownAfter, h, Nat.zero_sub]
  simp [closedBytes, closedString, hplaces]

/-! Zero (R195). -/

theorem padded_zero (k : Nat) : padded k 0 = List.replicate k 0x30#8 := by
  induction k with
  | zero => rfl
  | succ k ih =>
    rw [padded, Nat.zero_div, ih, List.replicate_succ']
    rfl

theorem roundedValue_zero (fd : Int) (ms : Bool) : roundedValue 0#32 fd ms = 0 := by
  simp [roundedValue]

theorem closedBytes_zero (neg : Bool) (fd : Int) (ms : Bool) :
    closedBytes 0#32 neg fd ms =
      (if neg then [0x2D#8] else []) ++ 0x30#8 ::
        (if shownAfter fd ms = 0 then [] else 0x2E#8 :: List.replicate (shownAfter fd ms) 0x30#8) ++ [0x00#8] := by
  have hwhole : [0x30#8] = numeral (roundedValue 0#32 fd ms / 10 ^ shownAfter fd ms) := by
    rw [roundedValue_zero, Nat.zero_div]
    rfl
  have hplaces : List.replicate (shownAfter fd ms) 0x30#8 =
      padded (shownAfter fd ms) (roundedValue 0#32 fd ms % 10 ^ shownAfter fd ms) := by
    rw [roundedValue_zero, Nat.zero_mod, padded_zero]
  simp [closedBytes_eq _ _ _ _ hwhole hplaces]

/-! The length (R199). -/

/-- A numeral has no more digits than the power of ten above its number. -/
theorem length_numeralIn_le_of_lt (fuel : Nat) {m n : Nat} (h : n < 10 ^ (m + 1)) :
    (numeralIn fuel n).length ≤ m + 1 := by
  induction fuel generalizing m n with
  | zero => exact Nat.zero_le _
  | succ fuel ih =>
    rcases Nat.lt_or_ge n 10 with hn | hn
    · simp [numeralIn_of_lt_ten fuel hn]
    · cases m with
      | zero => omega
      | succ m =>
        have := ih (m := m) (n := n / 10) (by rw [Nat.pow_succ] at h; omega)
        simpa [numeralIn_of_ten_le fuel hn] using this

/-- Rounding carries the integer part to five digits at most, and `S` digits of the fraction follow it before the
point (R191). -/
theorem roundedValue_div_lt_pow (value : Word) (fd : Int) (ms : Bool) :
    roundedValue value fd ms / 10 ^ shownAfter fd ms < 10 ^ (5 + shownBefore ms) := by
  have hvalue := value.isLt
  have hcount : digitCount ms fd = shownBefore ms + shownAfter fd ms := by
    have := shownBefore_le_digitCount ms fd
    rw [shownAfter]
    omega
  have hpos : 0 < 10 ^ digitCount ms fd := by positivity
  have hscaled := Nat.mul_lt_mul_of_pos_right hvalue hpos
  rw [Nat.div_lt_iff_lt_mul (by positivity), ← Nat.pow_add, Nat.add_assoc, ← hcount, Nat.pow_add, roundedValue]
  omega

theorem length_closedBytes (value : Word) (neg : Bool) (fd : Int) (ms : Bool) :
    (closedBytes value neg fd ms).length =
      neg.toNat + (numeral (roundedValue value fd ms / 10 ^ shownAfter fd ms)).length +
        (if shownAfter fd ms > 0 then shownAfter fd ms + 1 else 0) + 1 := by
  have hsign : (if neg then [0x2D#8] else [] : List Byte).length = neg.toNat := by cases neg <;> rfl
  simp only [closedBytes, closedString, List.length_append, hsign, apply_ite List.length, List.length_cons,
    length_padded, List.length_nil]

/-- At least one digit, and at most a sign, eleven digits, a point and the terminator (R199). -/
theorem length_closedBytes_range (value : Word) (neg : Bool) (fd : Int) (ms : Bool) :
    2 ≤ (closedBytes value neg fd ms).length ∧ (closedBytes value neg fd ms).length ≤ 14 := by
  have hsign := Bool.toNat_le neg
  have hcount := digitCount_le ms fd
  have hbefore := shownBefore_le_digitCount ms fd
  have hpos : 1 ≤ (numeral (roundedValue value fd ms / 10 ^ shownAfter fd ms)).length := length_numeralIn_pos _ _
  have hwhole : (numeral (roundedValue value fd ms / 10 ^ shownAfter fd ms)).length ≤ 5 + shownBefore ms := by
    have hlt := roundedValue_div_lt_pow value fd ms
    rw [show 5 + shownBefore ms = 4 + shownBefore ms + 1 by omega] at hlt ⊢
    exact length_numeralIn_le_of_lt 8 hlt
  have hafter : shownAfter fd ms = digitCount ms fd - shownBefore ms := rfl
  rw [length_closedBytes]
  split <;> omega

/-- The counts of `FDG` stand where a request under way has ended (R201). -/
theorem Underway.countsOk {r : ReqWord} {n : Nat} {out : Memory} {kept : List Memory} {s : State}
    (h : Underway r n .done out kept s) : CountsOk s := by
  have hdata := h.data
  rw [DataOk, h.phase_eq] at hdata
  obtain ⟨hcounts, -⟩ := hdata
  exact hcounts

end Sys2Proof.Safety

/-! PROOFS. The obligations on the closed form of a granted request. -/

namespace Sys2Proof.Proofs

open Sys2Proof.Machine Sys2Proof.Safety

/-- Settles O43: both runs deliver the closed form, and the sign is its first character. -/
theorem signOnlyPrependsMinus : Obligations.SignOnlyPrependsMinus := by
  intro s s' r r' hs hs' hvalue hfd hms hneg hneg'
  obtain ⟨t, hrun, ht⟩ := hs.runs
  obtain ⟨t', hrun', ht'⟩ := hs'.runs
  refine ⟨t, t', hrun, hrun', ?_⟩
  rw [ht.delivers.resultBytes_eq, ht'.delivers.resultBytes_eq, hvalue, hfd, hms, hneg, hneg', closedBytes_true,
    List.map_cons]

/-- Settles O45: the count is 0, so no place is shown and the rounding is to the integer. -/
theorem zeroPlacesPrintTheRoundedInteger : Obligations.ZeroPlacesPrintTheRoundedInteger := by
  intro s r hs hfd hms
  obtain ⟨t, hrun, ht⟩ := hs.runs
  have hcount : digitCount (reqMs r) (reqDigits r) = 0 := hms ▸ digitCount_false_of_nonpos hfd
  have hdel := ht.delivers
  rw [closedBytes_of_digitCount_eq_zero hcount, roundedValue_of_digitCount_eq_zero hcount] at hdel
  exact ⟨t, hrun, hdel⟩

/-- Settles O46: the closed form of the value 0. -/
theorem zeroPrintsAsZero : Obligations.ZeroPrintsAsZero := by
  intro s r hs hvalue
  obtain ⟨t, hrun, ht⟩ := hs.runs
  have hdel := ht.delivers
  rw [hvalue, closedBytes_zero] at hdel
  exact ⟨t, hrun, hdel⟩

/-- Settles O48: the length of the closed form, and the counts of `FDG`. -/
theorem noResultNeedsMoreThanFourteenBytes : Obligations.NoResultNeedsMoreThanFourteenBytes := by
  intro s r hs
  obtain ⟨t, hrun, ht⟩ := hs.runs
  have hlen := ht.delivers.length_eq
  have hrange := length_closedBytes_range (reqValue r) (reqNeg r) (reqDigits r) (reqMs r)
  obtain ⟨-, -, -, hend⟩ := ht.countsOk.range
  exact ⟨t, hrun, by omega, by omega, by omega⟩

end Sys2Proof.Proofs

/-! PROOFS. How a guard fails, and what a fault leaves behind (R210 to R212, R216, R217). -/

namespace Sys2Proof.Safety

open Sys2Proof.Machine

/-! A stage completes only where it has room (R212). -/

/-- `IDX` completes only where `FIRST` moves left by the number of digits. -/
theorem idxRun_first {n first f : Nat} {db db' : DigitBuffer} (hn : n < 100000)
    (h : idxRun n first db = .ok (f, db')) : f + digitsOfInteger n = first := by
  by_cases h0 : n = 0
  · subst h0
    cases first with
    | zero => simp [idxRun] at h
    | succ first =>
      rw [idxRun_zero_succ, Except.ok.injEq, Prod.mk.injEq] at h
      rw [h.1, digitsOfInteger_of_lt_ten (by decide)]
  · rw [idxRun_of_ne_zero h0] at h
    exact idxLoop_first hn h

/-- A carry into nothing but nines finds no digit to stop at. -/
theorem carryRun_ne_ok_of_nines {n : Nat} {db : DigitBuffer} (hpos : 1 ≤ n) (hcap : n ≤ 12)
    (hnines : ∀ i, i < n → slot db i = 9#4) (p : Nat) (db' : DigitBuffer) : carryRun n db ≠ .ok (p, db') := by
  intro h
  have hdig : ∀ i, i ≤ n - 1 → (slot db i).toNat ≤ 9 := fun i hi => by rw [hnines i (by omega)]; decide
  rw [carryRun, dbCap_eq, if_pos ⟨hpos, hcap⟩] at h
  obtain ⟨hp, -⟩ := carryLoop_ok h
  obtain ⟨hne, -⟩ := carryLoop_stop (by omega) hdig h
  exact hne (hnines p (by omega))

/-- `BufferOverrun` taken after a stage has written into the buffer and its own registers (R212, R216). -/
theorem overruns_raise_datapath (s : State) (work : Word) (ndig : BitVec 3) (first endAt dpp : Cursor)
    (db : DigitBuffer) :
    Overruns s ({ s with
      work := work, ndig := ndig, firstCur := first, endCur := endAt, dpp := dpp, db := db }.raise .bufferOverrun) :=
  ⟨rfl, rfl, rfl, rfl, rfl, rfl, rfl, rfl, rfl, rfl, rfl⟩

/-- `IDX` in its phase, with too few slots left of `FIRST`. -/
theorem exec_idx_overruns {s : State} (hp : s.phase = .int)
    (hroom : s.firstCur.toNat < digitsOfInteger (integerPart s.value).toNat) :
    ∃ t, exec .idx s = .next t ∧ Overruns s t := by
  rw [exec_idx, if_pos hp]
  rcases integerDigits_cases s with ⟨f, db, hrun, -⟩ | ⟨f, db, -, h⟩
  · have := idxRun_first (integerPart_lt s.value) hrun
    omega
  · exact ⟨_, congrArg _ h, overruns_raise_datapath ..⟩

/-- `FDG` in its phase, with digits to make and too few slots up to 10. -/
theorem exec_fdg_overruns {s : State} (hp : s.phase = .frac) (hpos : 1 ≤ digitCount s.ms s.fd.toInt)
    (hroom : 11 < s.endCur.toNat + digitCount s.ms s.fd.toInt) :
    ∃ t, exec .fdg s = .next t ∧ Overruns s t := by
  rw [exec_fdg, if_pos hp]
  rcases fractionDigits_cases s with ⟨g, hrun, -⟩ | ⟨g, -, h⟩
  · obtain ⟨hend, hcap, -⟩ := fdgLoop_ok hrun
    have hstart : (generationStart s).endAt = s.endCur.toNat := rfl
    omega
  · exact ⟨_, congrArg _ h, overruns_raise_datapath ..⟩

/-- `RND` in its phase, from one half on, over nines down to slot 0. -/
theorem exec_rnd_overruns {s : State} (hp : s.phase = .round) (hhalf : 32768 ≤ s.work.toNat % 65536)
    (hpos : 1 ≤ s.endCur.toNat) (hcap : s.endCur.toNat ≤ 12)
    (hnines : ∀ i, i < s.endCur.toNat → slot s.db i = 9#4) :
    ∃ t, exec .rnd s = .next t ∧ Overruns s t := by
  have hup : roundUp s.work = true := (roundUp_iff _).mpr hhalf
  rw [exec_rnd, if_pos hp]
  rcases roundDigits_cases s with ⟨hdown, -⟩ | ⟨-, p, db, hrun, -⟩ | ⟨-, db, -, h⟩
  · simp [hup] at hdown
  · exact absurd hrun (carryRun_ne_ok_of_nines hpos hcap hnines p db)
  · exact ⟨_, congrArg _ h, overruns_raise_datapath ..⟩

/-! A fault standing (R217). -/

theorem raise_fault_ne_none (s : State) (e : EngineException) : (s.raise e).fault ≠ .none := by
  cases e <;> simp [exceptionCode]

/-- No move of the engine's own clears `FAULT`: it leaves it or enters a fault. -/
theorem engineMove_fault_ne_none {s t : State} (h : EngineMove s t) (hf : s.fault ≠ .none) : t.fault ≠ .none := by
  cases h with
  | hold | granted | indexed | generated | truncated | carried | assembled => exact hf
  | denied => exact raise_fault_ne_none s .noBuffer
  | indexOverran | generationOverran | carryOverran | assemblyOverran => exact raise_fault_ne_none _ .bufferOverrun

/-- No step but reset clears `FAULT`. -/
theorem step_fault_ne_none {s t : State} (h : step s = .next t) (hm : hostMove s ≠ .reset)
    (hf : s.fault ≠ .none) : t.fault ≠ .none := by
  cases stepMove_of_step h with
  | reset hr => exact absurd hr hm
  | started | dropped => exact hf
  | engine _ _ hmove => exact engineMove_fault_ne_none (s := s.moved) hmove hf

/-! A denied request (R211). -/

/-- A listed denial is the answer the `ACQ` takes. -/
theorem acquireOp_of_denied {s : State} (h : s.answers.head? = some false) :
    acquireOp s = (s.raise .noBuffer).drawn := by
  obtain ⟨rest, hanswers⟩ := List.head?_eq_some_iff.mp h
  have hgrant : s.grant = false := by rw [State.grant, hanswers]
  simp [acquireOp, hgrant]

/-- A request is accepted, and the host is quiet in the step that follows. -/
theorem Requests.started {s : State} {r : ReqWord} {n : Nat} (h : Requests s r (n + 1)) :
    ∃ t, t = s.moved.latch (reqValue r) (reqNeg r) (r.extractLsb' 32 16) (reqMs r) ∧
      step s = .next t ∧ hostMove t = .quiet := by
  obtain ⟨hp, hstart, hquiet⟩ := h
  have hmove : hostMove s = .start r := by rw [hostMove, List.headD_eq_head?_getD, hstart]; rfl
  exact ⟨_, rfl, step_of_hostMove_start hmove hp, QuietFor.hostMove_eq (n := n) hquiet⟩

end Sys2Proof.Safety

/-! PROOFS. The obligations on the exceptions. -/

namespace Sys2Proof.Proofs

open Sys2Proof.Machine Sys2Proof.Safety

/-- Settles O27: each of the three stages completes only where it has room, and otherwise raises `BufferOverrun`. -/
theorem guardsTakeBufferOverrun : Obligations.GuardsTakeBufferOverrun :=
  fun _ => ⟨exec_idx_overruns, exec_fdg_overruns, exec_rnd_overruns⟩

/-- Settles O28: no move clears `FAULT`; where the invariant holds, a fault stands in `FAULTED` only, and there nothing
changes. -/
theorem faultRegistersAreSticky : Obligations.FaultRegistersAreSticky := by
  intro s t h hm hf
  refine ⟨step_fault_ne_none h hm hf, fun ⟨_, hfaulted, _⟩ => ?_⟩
  have hp : s.phase = .faulted := hfaulted.mp hf
  obtain rfl := eq_of_step (faultedIsLeftByResetOnly s hp hm) h
  exact ⟨rfl, rfl, hp⟩

/-- Settles O41: START latches the request and `ACQ` takes the denial; neither writes a datapath register or a
storage of the host. -/
theorem deniedRequestEndsFaulted : Obligations.DeniedRequestEndsFaulted := by
  intro s r hreq hanswer
  obtain ⟨u, rfl, hstart, hquiet⟩ := hreq.started
  have hacq := step_of_hostMove_quiet hquiet
  rw [phaseStep, acquireOp_of_denied (s := (s.moved.latch _ _ _ _).moved) hanswer] at hacq
  refine ⟨_, (run_succ hstart 1).trans (run_succ hacq 0), ?_⟩
  exact ⟨rfl, rfl, rfl, rfl, rfl, rfl, rfl, rfl, rfl, rfl⟩

/-- Settles O7, by the next state `step_eq` gives for each move of the host. -/
theorem everyStepAnswersNext : Obligations.EveryStepAnswersNext :=
  fun s => ⟨_, step_eq s⟩

/-- Settles O17: the denial is taken, and fault entry writes what it writes. -/
theorem acqDeniedRaisesNoBuffer : Obligations.AcqDeniedRaisesNoBuffer := by
  intro s rest hp hanswers
  refine ⟨rfl, rfl, ?_⟩
  obtain rfl : s.answers.tail = rest := by rw [hanswers, List.tail_cons]
  rw [exec_acq, if_pos hp, acquireOp_of_denied (by rw [hanswers]; rfl), ← hp]
  rfl

/-- Settles O26: fault entry is `OWNER` given up and the other three registers written. -/
theorem faultEntryWritesItsFourRegisters : Obligations.FaultEntryWritesItsFourRegisters :=
  fun _ _ => ⟨rfl, rfl, rfl⟩

end Sys2Proof.Proofs

/-! PROOFS. The two ways into the state after reset: power-up and the reset input. -/

namespace Sys2Proof.Safety

open Sys2Proof.Machine

/-- The reset input leaves the host exactly the storages it owned (R240). -/
theorem hostStores_resetInput (s : State) : hostStores s.resetInput = hostStores s :=
  calc hostStores s.resetInput
    _ = s.resetInput.kept := hostStores_of_ne_host (by simp)
    _ = hostStores s := s.resetInput_kept

theorem memoryOk_reset : MemoryOk State.reset :=
  ⟨rfl, List.forall_mem_nil _⟩

theorem storageOk_reset : StorageOk State.reset :=
  storageOk_of_not_owned rfl rfl (List.forall_mem_nil _)

theorem controlOk_reset : ControlOk State.reset :=
  controlOk_of_no_fault rfl rfl (by decide)

/-- `IDLE` asks nothing of the datapath, so that the registers reset leaves unspecified (log 5) do not matter. -/
theorem dataOk_of_idle {s : State} (hp : s.phase = .idle) : DataOk s := by
  rw [DataOk, hp]
  trivial

end Sys2Proof.Safety

/-! PROOFS. The obligations on reset. -/

namespace Sys2Proof.Proofs

open Sys2Proof.Machine Sys2Proof.Safety

/-- Settles O30: the reset is the host's move of this step, and it leaves the host's storages alone. -/
theorem resetInputStartsOver : Obligations.ResetInputStartsOver := by
  intro s rest hinputs
  exact ⟨_, step_of_reset hinputs, rfl, rfl, rfl, rfl, hostStores_resetInput _, rfl, rfl, rfl⟩

/-- Settles O31: the four values stand in `State.reset`. -/
theorem resetStateAsTheSpecSays : Obligations.ResetStateAsTheSpecSays :=
  ⟨rfl, rfl, rfl, rfl⟩

/-- Settles O35: nobody owns a storage, no fault stands, and `IDLE` asks nothing of the datapath. -/
theorem resetSatisfiesTheInvariant : Obligations.ResetSatisfiesTheInvariant :=
  ⟨memoryOk_reset, storageOk_reset, controlOk_reset, dataOk_of_idle rfl⟩

end Sys2Proof.Proofs
